-- ==== Sys2Proof/Word.lean ====
section
/-! DEFINITION. The widths of the machine's values (00_scope.md R8, R11): every value is unsigned. -/

namespace Sys2Proof

/-- A cell of memory, a general register or a timer: 8 bits (R8, `TIMER_WIDTH`). -/
abbrev Byte := BitVec 8

/-- An instruction word, `pc`, `I` or a stack slot: 16 bits (R8, `PC_WIDTH`, `I_WIDTH`). -/
abbrev Word := BitVec 16

/-- A register number, the x or y field of a word: 4 bits (30_encoding.md R61, R62). -/
abbrev Reg := BitVec 4

/-- A 12-bit address field, `nnn` (30_encoding.md R61, R62). -/
abbrev Addr12 := BitVec 12

end Sys2Proof
end

