-- ==== Sys2Proof/Machine/Fields.lean ====
section
/-! DEFINITION. The fields of an instruction word (30_encoding.md R61), the byte order of a word in memory
(20_memory.md R47), and which words no instruction claims (48_null.md R141). -/

namespace Sys2Proof

/-- `lead`, bits 15..12 (R61). -/
def fieldLead (w : Word) : BitVec 4 := w.extractLsb' 12 4

/-- `x`, bits 11..8 (R61). -/
def fieldX (w : Word) : Reg := w.extractLsb' 8 4

/-- `y`, bits 7..4 (R61). -/
def fieldY (w : Word) : Reg := w.extractLsb' 4 4

/-- `n`, bits 3..0 (R61). -/
def fieldN (w : Word) : BitVec 4 := w.extractLsb' 0 4

/-- `kk`, bits 7..0 (R61). -/
def fieldKK (w : Word) : Byte := w.extractLsb' 0 8

/-- `nnn`, bits 11..0 (R61). -/
def fieldNNN (w : Word) : Addr12 := w.extractLsb' 0 12

/-- Bits 11..4, which `CLS` and `RET` ignore (R71). -/
def fieldXY (w : Word) : BitVec 8 := w.extractLsb' 4 8

/-- The word of two bytes at rising addresses: big-endian, the byte at the lower address is bits 15..8
(20_memory.md R47). -/
def joinBytes (first second : Byte) : Word := first ++ second

/-- The byte of a word that lies at the lower address (20_memory.md R47). -/
def firstByte (w : Word) : Byte := w.extractLsb' 8 8

/-- The byte of a word that lies at the higher address (20_memory.md R47). -/
def secondByte (w : Word) : Byte := w.extractLsb' 0 8

/-- The words that route to no instruction, as 48_null.md R141 lists them. -/
def unassigned (w : Word) : Bool :=
  (fieldLead w == 0x0#4 && !([0x0#4, 0xE#4].contains (fieldN w))) ||
  (fieldLead w == 0x8#4 && [0x8#4, 0x9#4, 0xA#4, 0xB#4, 0xC#4, 0xD#4, 0xF#4].contains (fieldN w)) ||
  (fieldLead w == 0xE#4 && !([0x1#4, 0xE#4].contains (fieldN w))) ||
  (fieldLead w == 0xF#4 &&
    !([0x07#8, 0x0A#8, 0x15#8, 0x18#8, 0x1E#8, 0x29#8, 0x33#8, 0x55#8, 0x65#8].contains (fieldKK w)))

end Sys2Proof
end

