-- ==== Sys2Proof/Syntax.lean ====
section
/-! DEFINITION. The 35 kinds of instruction (00_scope.md R2, 30_encoding.md R72, R73), one constructor for
each row of the opcode table.

A constructor keeps every bit of its word, the don't-care bits of R71 too, because a fault records the whole
opcode (10_state.md R31). DESIGN CHOICE, log entry 7, safe. -/

namespace Sys2Proof

/-- An instruction. `x` and `y` are register numbers, `kk` an 8-bit immediate, `nnn` a 12-bit address, `n` a
count of rows (R62). `ignored` names the don't-care bits of the word (R71). -/
inductive Instr where
  /-- `CLS` (45_drawing.md R128); bits 11..4 are ignored. -/
  | cls (ignored : BitVec 8)
  /-- `RET` (41_control_flow.md R101); bits 11..4 are ignored. -/
  | ret (ignored : BitVec 8)
  /-- `JP nnn` (41_control_flow.md R99). -/
  | jp (nnn : Addr12)
  /-- `CALL nnn` (41_control_flow.md R100). -/
  | call (nnn : Addr12)
  /-- `SE Vx, kk` (42_skip.md R103). -/
  | seImm (x : Reg) (kk : Byte)
  /-- `SNE Vx, kk` (42_skip.md R104). -/
  | sneImm (x : Reg) (kk : Byte)
  /-- `SE Vx, Vy` (42_skip.md R105); bits 3..0 are ignored. -/
  | seReg (x y : Reg) (ignored : BitVec 4)
  /-- `LD Vx, kk` (43_arithmetic.md R107). -/
  | ldImm (x : Reg) (kk : Byte)
  /-- `ADD Vx, kk` (43_arithmetic.md R108). -/
  | addImm (x : Reg) (kk : Byte)
  /-- `LD Vx, Vy` (43_arithmetic.md R109). -/
  | ldReg (x y : Reg)
  /-- `OR Vx, Vy` (43_arithmetic.md R110). -/
  | or (x y : Reg)
  /-- `AND Vx, Vy` (43_arithmetic.md R111). -/
  | and (x y : Reg)
  /-- `XOR Vx, Vy` (43_arithmetic.md R112). -/
  | xor (x y : Reg)
  /-- `ADD Vx, Vy` (43_arithmetic.md R113). -/
  | addReg (x y : Reg)
  /-- `SUB Vx, Vy` (43_arithmetic.md R114). -/
  | sub (x y : Reg)
  /-- `SHR Vx` (43_arithmetic.md R115); bits 7..4 are ignored. -/
  | shr (x : Reg) (ignored : BitVec 4)
  /-- `SUBN Vx, Vy` (43_arithmetic.md R116). -/
  | subn (x y : Reg)
  /-- `SHL Vx` (43_arithmetic.md R117); bits 7..4 are ignored. -/
  | shl (x : Reg) (ignored : BitVec 4)
  /-- `SNE Vx, Vy` (42_skip.md R106); bits 3..0 are ignored. -/
  | sneReg (x y : Reg) (ignored : BitVec 4)
  /-- `LD I, nnn` (44_memory_index.md R121). -/
  | ldI (nnn : Addr12)
  /-- `JP V0, nnn` (41_control_flow.md R102). -/
  | jpV0 (nnn : Addr12)
  /-- `RND Vx, kk` (43_arithmetic.md R119). -/
  | rnd (x : Reg) (kk : Byte)
  /-- `DRW Vx, Vy, n` (45_drawing.md R129). -/
  | drw (x y : Reg) (n : BitVec 4)
  /-- `SKP Vx` (46_input.md R134); bits 7..4 are ignored. -/
  | skp (x : Reg) (ignored : BitVec 4)
  /-- `SKNP Vx` (46_input.md R135); bits 7..4 are ignored. -/
  | sknp (x : Reg) (ignored : BitVec 4)
  /-- `LD Vx, DT` (47_timers.md R138). -/
  | ldVxDT (x : Reg)
  /-- `LD Vx, K` (46_input.md R136). -/
  | ldVxK (x : Reg)
  /-- `LD DT, Vx` (47_timers.md R139). -/
  | ldDTVx (x : Reg)
  /-- `LD ST, Vx` (47_timers.md R140). -/
  | ldSTVx (x : Reg)
  /-- `ADD I, Vx` (44_memory_index.md R122). -/
  | addI (x : Reg)
  /-- `LD F, Vx` (44_memory_index.md R123). -/
  | ldF (x : Reg)
  /-- `LD B, Vx` (44_memory_index.md R124). -/
  | ldB (x : Reg)
  /-- `LD [I], Vx` (44_memory_index.md R125). -/
  | storeRegs (x : Reg)
  /-- `LD Vx, [I]` (44_memory_index.md R126). -/
  | loadRegs (x : Reg)
  /-- `NOP`, with its word (48_null.md R141). -/
  | nop (word : Word)
  deriving DecidableEq, Repr

end Sys2Proof
end

