-- ==== Sys2Proof/Decode.lean ====
section
/-! DEFINITION. The field extractor and the two-level dispatcher (30_encoding.md R61 to R73), total on every
word and on every list of bytes, and the encoder written from the same table. -/

namespace Sys2Proof

/-- Sub-table 0, keyed by `n` (R66). -/
def decodeFamily0 (w : Word) : Instr :=
  match fieldN w with
  | 0x0#4 => .cls (fieldXY w)
  | 0xE#4 => .ret (fieldXY w)
  | _ => .nop w

/-- Sub-table 8, keyed by `n` (R67). -/
def decodeFamily8 (w : Word) : Instr :=
  match fieldN w with
  | 0x0#4 => .ldReg (fieldX w) (fieldY w)
  | 0x1#4 => .or (fieldX w) (fieldY w)
  | 0x2#4 => .and (fieldX w) (fieldY w)
  | 0x3#4 => .xor (fieldX w) (fieldY w)
  | 0x4#4 => .addReg (fieldX w) (fieldY w)
  | 0x5#4 => .sub (fieldX w) (fieldY w)
  | 0x6#4 => .shr (fieldX w) (fieldY w)
  | 0x7#4 => .subn (fieldX w) (fieldY w)
  | 0xE#4 => .shl (fieldX w) (fieldY w)
  | _ => .nop w

/-- Sub-table E, keyed by `n` (R68). -/
def decodeFamilyE (w : Word) : Instr :=
  match fieldN w with
  | 0xE#4 => .skp (fieldX w) (fieldY w)
  | 0x1#4 => .sknp (fieldX w) (fieldY w)
  | _ => .nop w

/-- Sub-table F, keyed by `kk` (R69). -/
def decodeFamilyF (w : Word) : Instr :=
  match fieldKK w with
  | 0x07#8 => .ldVxDT (fieldX w)
  | 0x0A#8 => .ldVxK (fieldX w)
  | 0x15#8 => .ldDTVx (fieldX w)
  | 0x18#8 => .ldSTVx (fieldX w)
  | 0x1E#8 => .addI (fieldX w)
  | 0x29#8 => .ldF (fieldX w)
  | 0x33#8 => .ldB (fieldX w)
  | 0x55#8 => .storeRegs (fieldX w)
  | 0x65#8 => .loadRegs (fieldX w)
  | _ => .nop w

/-- The top-level table, keyed by the leading nibble (R65, R72). The last arm is nibble 0xF, the only one
left. -/
def decodeWord (w : Word) : Instr :=
  match fieldLead w with
  | 0x0#4 => decodeFamily0 w
  | 0x1#4 => .jp (fieldNNN w)
  | 0x2#4 => .call (fieldNNN w)
  | 0x3#4 => .seImm (fieldX w) (fieldKK w)
  | 0x4#4 => .sneImm (fieldX w) (fieldKK w)
  | 0x5#4 => .seReg (fieldX w) (fieldY w) (fieldN w)
  | 0x6#4 => .ldImm (fieldX w) (fieldKK w)
  | 0x7#4 => .addImm (fieldX w) (fieldKK w)
  | 0x8#4 => decodeFamily8 w
  | 0x9#4 => .sneReg (fieldX w) (fieldY w) (fieldN w)
  | 0xA#4 => .ldI (fieldNNN w)
  | 0xB#4 => .jpV0 (fieldNNN w)
  | 0xC#4 => .rnd (fieldX w) (fieldKK w)
  | 0xD#4 => .drw (fieldX w) (fieldY w) (fieldN w)
  | 0xE#4 => decodeFamilyE w
  | _ => decodeFamilyF w

/-- Why a list of bytes gives no instruction. No word is rejected (R64, R75): only a list that holds no
whole word is. -/
inductive DecodeError where
  /-- Fewer than two bytes: an instruction has 2 bytes (R60). -/
  | truncated
  deriving DecidableEq, Repr

/-- Decode the first instruction of a list of bytes, lowest address first, and give the rest. -/
def decode : List Byte → Except DecodeError (Instr × List Byte)
  | first :: second :: rest => .ok (decodeWord (joinBytes first second), rest)
  | _ => .error .truncated

/-- The word of an instruction (R73), with its don't-care bits as the instruction holds them. -/
def encode : Instr → Word
  | .cls d => 0x0#4 ++ d ++ 0x0#4
  | .ret d => 0x0#4 ++ d ++ 0xE#4
  | .jp nnn => 0x1#4 ++ nnn
  | .call nnn => 0x2#4 ++ nnn
  | .seImm x kk => 0x3#4 ++ x ++ kk
  | .sneImm x kk => 0x4#4 ++ x ++ kk
  | .seReg x y d => 0x5#4 ++ x ++ y ++ d
  | .ldImm x kk => 0x6#4 ++ x ++ kk
  | .addImm x kk => 0x7#4 ++ x ++ kk
  | .ldReg x y => 0x8#4 ++ x ++ y ++ 0x0#4
  | .or x y => 0x8#4 ++ x ++ y ++ 0x1#4
  | .and x y => 0x8#4 ++ x ++ y ++ 0x2#4
  | .xor x y => 0x8#4 ++ x ++ y ++ 0x3#4
  | .addReg x y => 0x8#4 ++ x ++ y ++ 0x4#4
  | .sub x y => 0x8#4 ++ x ++ y ++ 0x5#4
  | .shr x d => 0x8#4 ++ x ++ d ++ 0x6#4
  | .subn x y => 0x8#4 ++ x ++ y ++ 0x7#4
  | .shl x d => 0x8#4 ++ x ++ d ++ 0xE#4
  | .sneReg x y d => 0x9#4 ++ x ++ y ++ d
  | .ldI nnn => 0xA#4 ++ nnn
  | .jpV0 nnn => 0xB#4 ++ nnn
  | .rnd x kk => 0xC#4 ++ x ++ kk
  | .drw x y n => 0xD#4 ++ x ++ y ++ n
  | .skp x d => 0xE#4 ++ x ++ d ++ 0xE#4
  | .sknp x d => 0xE#4 ++ x ++ d ++ 0x1#4
  | .ldVxDT x => 0xF#4 ++ x ++ 0x07#8
  | .ldVxK x => 0xF#4 ++ x ++ 0x0A#8
  | .ldDTVx x => 0xF#4 ++ x ++ 0x15#8
  | .ldSTVx x => 0xF#4 ++ x ++ 0x18#8
  | .addI x => 0xF#4 ++ x ++ 0x1E#8
  | .ldF x => 0xF#4 ++ x ++ 0x29#8
  | .ldB x => 0xF#4 ++ x ++ 0x33#8
  | .storeRegs x => 0xF#4 ++ x ++ 0x55#8
  | .loadRegs x => 0xF#4 ++ x ++ 0x65#8
  | .nop w => w

/-- The bytes of an instruction as memory holds them, lowest address first (20_memory.md R47). -/
def encodeBytes (i : Instr) : List Byte := [firstByte (encode i), secondByte (encode i)]

/-- The word whose bits the opcode table numbers `w`. An instruction is one 16-bit word (R60), so bits of `w`
above the row's `nbits`, and above 16, take no part. -/
def tableWord (nbits w : Nat) : Word := BitVec.ofNat 16 (w % 2 ^ nbits)

/-- The instruction the decoder reads from the word that the opcode table numbers `w`, laid out as memory holds
it. -/
def decodeTableWord (nbits w : Nat) : Option Instr :=
  match decode [firstByte (tableWord nbits w), secondByte (tableWord nbits w)] with
  | .ok (i, _) => some i
  | .error _ => none

end Sys2Proof
end

