-- ==== Sys2Proof/Config.lean ====
section
/-! DEFINITION. The parameters of 00_scope.md R8 and R9, and the free values: what the host gives a step
that nothing in the state names. -/

namespace Sys2Proof

/-- `MEM_SIZE` (R8): addresses 0x000 to 0xFFF. -/
abbrev Config.memSize : Nat := 0x1000

/-- `STACK_DEPTH` (R8). -/
abbrev Config.stackDepth : Nat := 16

/-- `FB_W` (R8). -/
abbrev Config.screenWidth : Nat := 64

/-- `FB_H` (R8). -/
abbrev Config.screenHeight : Nat := 32

/-- `FONT_BASE` (R8). -/
abbrev Config.fontBase : Nat := 0x050

/-- `PROGRAM_START` (R8). -/
abbrev Config.programStart : Nat := 0x200

/-- The two values of the parameter `SHIFT_VF_ORDER` (43_arithmetic.md R118). -/
inductive ShiftVfOrder where
  /-- VF is written before the shift reads Vx. -/
  | flagFirst
  /-- VF is written last. -/
  | flagLast
  deriving DecidableEq, Repr

/-- The keypad snapshot of a step for which the state names none: a free value
(10_state.md R26, 60_exceptions.md R160). DESIGN CHOICE, log entry 2, safe. -/
opaque Config.freeKeys : Nat → Vector Bool 16

/-- The random draw of a step for which the state names none: a free value
(10_state.md R30, 40_cycle.md R81). DESIGN CHOICE, log entry 2, safe. -/
opaque Config.freeDraw : Nat → Byte

end Sys2Proof
end

