-- ==== Sys2Proof/Machine/State.lean ====
section
/-! DEFINITION. The state of the core as plain data (10_state.md R15 to R40), its value after reset (R33), and
the reasons a step can stop. -/

namespace Sys2Proof.Machine

/-- Memory (10_state.md R38): the list of the cells that differ from what memory holds at reset, addresses
strictly rising. What an unlisted cell reads as, and the form of the list, are in Machine/Memory.lean. -/
abbrev Memory := List Host.Cell

/-- The framebuffer (R35): 32 rows of 64 pixels, true for on, row 0 and column 0 first. -/
abbrev Screen := Vector (Vector Bool 64) 32

/-- A keypad snapshot (10_state.md R26): entry k is true iff key k is pressed. -/
abbrev Keys := Vector Bool 16

/-- The inputs of one step (40_cycle.md R81): the keypad snapshot, and the draw that `RND` uses. -/
structure StepInput where
  keys : Keys
  draw : Byte
  deriving DecidableEq, Repr

/-- The fault kinds with their recorded info (60_exceptions.md R146). -/
inductive FaultKind where
  /-- Code 1: pc + 1 > 0xFFF at the fetch; records the pc. -/
  | fetchBounds (pc : Word)
  /-- Code 2: a data address > 0xFFF; records the first such address. -/
  | memBounds (address : Nat)
  /-- Code 3: a set sprite bit at column > 63 or row > 31; records both. -/
  | framebufferBounds (column row : Nat)
  /-- Code 4: `CALL` with sp = 16; records sp. -/
  | stackOverflow (sp : Nat)
  /-- Code 5: `RET` with sp = 0; records sp. -/
  | stackUnderflow (sp : Nat)
  /-- Code 6: Vx > 15 as a key number; records Vx. -/
  | keyIndex (value : Byte)
  /-- Code 7: I + Vx > 0xFFFF; records I + Vx. -/
  | indexOverflow (sum : Nat)
  deriving DecidableEq, Repr

/-- The run status (10_state.md R31): `faulted kind p opcode` has the address of the faulting instruction
and its word, `none` for a fetch fault. -/
inductive RunStatus where
  | running
  | faulted (kind : FaultKind) (p : Word) (opcode : Option Word)
  deriving DecidableEq, Repr

/-- The machine's state (10_state.md R15). -/
structure State where
  /-- V0 to VF (R17). -/
  v : Vector Byte 16
  /-- The index register I (R27). -/
  index : Word
  /-- The program counter (R22). -/
  pc : Word
  /-- The call stack's 16 slots (R28). -/
  stack : Vector Word 16
  /-- The stack pointer, 0 to 16, the number of occupied slots (R28): the parameter `SP_WIDTH`. DESIGN CHOICE,
  log entry 5, safe. -/
  sp : Fin 17
  /-- The delay timer (R32). -/
  dt : Byte
  /-- The sound timer (R32). -/
  st : Byte
  /-- The memory (R38). -/
  mem : Memory
  /-- The framebuffer (R35). -/
  fb : Screen
  /-- The run status (R31). -/
  status : RunStatus
  /-- The MODEL's own field, log entry 2: the inputs the host has named for the coming steps, the next step's
  first. -/
  pending : List StepInput
  /-- The MODEL's own field, log entry 2: the number of completed steps, which numbers the free inputs. -/
  stepNo : Nat
  deriving DecidableEq, Repr

/-- Why a step answers no state. -/
inductive Fault where
  /-- Raised by `step` alone, on a state whose status is already `faulted`: such a state has no step
  (40_cycle.md R80). Safe: no claim about a further state can be proved. A fault of the core itself
  (60_exceptions.md R146) is not this one: it is a next state whose status is `faulted` (log entry 1). -/
  | noStep (kind : FaultKind) (p : Word) (opcode : Option Word)
  deriving DecidableEq, Repr

/-- Why an instruction has no meaning here. -/
inductive Refusal where
  /-- Raised by an arm of `exec` that has no meaning yet; no arm of this model is one. Safe. -/
  | notModelled (mnemonic : String)
  deriving DecidableEq, Repr

/-- The state after a launch with an empty ROM (10_state.md R33, 70_reset_and_hazards.md R169): memory
lists nothing, so it holds the font and zeros. `pending` and `stepNo` are the model's own (log entry 2). -/
def State.reset : State where
  v := Vector.replicate 16 0
  index := 0
  pc := 0x200
  stack := Vector.replicate 16 0
  sp := 0
  dt := 0
  st := 0
  mem := []
  fb := Vector.replicate 32 (Vector.replicate 64 false)
  status := .running
  pending := []
  stepNo := 0

end Sys2Proof.Machine
end

