-- ==== Sys2Proof/Machine/Memory.lean ====
section
/-! DEFINITION. The 4096 cells of memory (20_memory.md R41 to R59): what an unlisted cell holds, the canonical
form, reading and writing bytes, the bounds check. -/

namespace Sys2Proof.Machine

/-- The 16 glyphs of the font, five bytes each (10_state.md R29): the default of the parameter `FONT`.
DESIGN CHOICE to take the default, log entry 4, unsafe for claims that rest on a glyph's shape. -/
def font : List Byte :=
  [0xF0, 0x90, 0x90, 0x90, 0xF0] ++ [0x20, 0x60, 0x20, 0x20, 0x70] ++
  [0xF0, 0x10, 0xF0, 0x80, 0xF0] ++ [0xF0, 0x10, 0xF0, 0x10, 0xF0] ++
  [0x90, 0x90, 0xF0, 0x10, 0x10] ++ [0xF0, 0x80, 0xF0, 0x10, 0xF0] ++
  [0xF0, 0x80, 0xF0, 0x90, 0xF0] ++ [0xF0, 0x10, 0x20, 0x40, 0x40] ++
  [0xF0, 0x90, 0xF0, 0x90, 0xF0] ++ [0xF0, 0x90, 0xF0, 0x10, 0xF0] ++
  [0xF0, 0x90, 0xF0, 0x90, 0x90] ++ [0xE0, 0x90, 0xE0, 0x90, 0xE0] ++
  [0xF0, 0x80, 0x80, 0x80, 0xF0] ++ [0xE0, 0x90, 0x90, 0x90, 0xE0] ++
  [0xF0, 0x80, 0xF0, 0x80, 0xF0] ++ [0xF0, 0x80, 0xF0, 0x80, 0x80]

/-- What an unlisted cell reads as: its reset contents, the font from 0x050 and 0 elsewhere (10_state.md
R33). -/
def resetByte (a : Nat) : Byte :=
  if Config.fontBase ≤ a then font.getD (a - Config.fontBase) 0 else 0

/-- The byte at `a`: the listed one, else the reset contents. Reading has no side effect (20_memory.md R51). -/
def Memory.byteAt (m : Memory) (a : Nat) : Byte :=
  match m with
  | [] => resetByte a
  | (b, u) :: rest => if a = b then u else Memory.byteAt rest a

/-- The list entry for byte `u` at `a`: none where that is what an unlisted cell reads as. -/
def Memory.entry (a : Nat) (u : Byte) : Memory :=
  if u = resetByte a then [] else [(a, u)]

/-- Write one byte (00_scope.md R13), in the canonical form. -/
def Memory.store (m : Memory) (a : Nat) (u : Byte) : Memory :=
  match m with
  | [] => Memory.entry a u
  | (b, w) :: rest =>
    if a < b then Memory.entry a u ++ (b, w) :: rest
    else if a = b then Memory.entry a u ++ rest
    else (b, w) :: Memory.store rest a u

/-- Write bytes at rising addresses from `a`, in ascending order (20_memory.md R45). -/
def Memory.storeBytes (m : Memory) (a : Nat) (bytes : List Byte) : Memory :=
  match bytes with
  | [] => m
  | u :: rest => Memory.storeBytes (m.store a u) (a + 1) rest

/-- All entries are at addresses from `low` up, strictly rising, below 4096, and differ from what an unlisted
cell reads as. -/
def Memory.wfFrom (low : Nat) (m : Memory) : Bool :=
  match m with
  | [] => true
  | (b, u) :: rest =>
    decide (low ≤ b) && decide (b < Config.memSize) && decide (u ≠ resetByte b) && Memory.wfFrom (b + 1) rest

/-- The canonical form of memory (DESIGN CHOICE, log entry 9, safe). -/
def Memory.wf (m : Memory) : Bool := Memory.wfFrom 0 m

/-- The bounds check of a data access to `a`, `a + 1`, ..., `a + k` (20_memory.md R49, 44_memory_index.md
`first_oob`): the sum is exact, and the fault names the first address above 0xFFF. -/
def checkSpan (a k : Nat) : Option FaultKind :=
  if a + k ≤ 0xFFF then none else some (.memBounds (max a 0x1000))

end Sys2Proof.Machine
end

