-- ==== Sys2Proof/Machine/Pixels.lean ====
section
/-! DEFINITION. The framebuffer's pixels (10_state.md R35, R36): reading one, turning one over, the cleared
screen. -/

namespace Sys2Proof.Machine

/-- Every pixel off (45_drawing.md R128). -/
def Screen.clear : Screen := Vector.replicate 32 (Vector.replicate 64 false)

/-- `fb(c, r)`: the pixel at column `c` and row `r` (R35); there is none outside the grid. -/
def Screen.pixel (fb : Screen) (c r : Nat) : Bool :=
  if h : c < Config.screenWidth ∧ r < Config.screenHeight then (fb[r]'h.2)[c]'h.1 else false

/-- XOR the pixel at column `c` and row `r` with 1 (45_drawing.md R129). -/
def Screen.toggle (fb : Screen) (c r : Nat) : Screen :=
  if h : c < Config.screenWidth ∧ r < Config.screenHeight then
    fb.set r ((fb[r]'h.2).set c (!((fb[r]'h.2)[c]'h.1)) h.1) h.2
  else fb

/-- A pixel coordinate lies outside the screen (45_drawing.md R132). -/
def offScreen (p : Nat × Nat) : Bool := decide (p.1 > 63) || decide (p.2 > 31)

/-- Draw one set sprite bit: note a collision where the pixel is on, then turn it over (45_drawing.md R129,
R130). -/
def drawPixel (acc : Screen × Bool) (p : Nat × Nat) : Screen × Bool :=
  (acc.1.toggle p.1 p.2, acc.2 || acc.1.pixel p.1 p.2)

/-- Draw set sprite bits in order, from VF cleared (45_drawing.md R129). -/
def drawPixels (fb : Screen) (ps : List (Nat × Nat)) : Screen × Bool :=
  ps.foldl drawPixel (fb, false)

end Sys2Proof.Machine
end

