-- ==== Sys2Proof/Machine/Ops.lean ====
section
/-! DEFINITION. The named operations on the state: one home for each register's reads and writes (00_scope.md
R12, R13), the stack, the timers' tick, the step's inputs, and taking a fault.

There is no return from a fault: no instruction returns, and a faulted state never resumes (60_exceptions.md
R151). -/

namespace Sys2Proof.Machine

/-- The number of the flag register VF (10_state.md R20). -/
def vf : Reg := 0xF#4

/-- `V[x]`, read (10_state.md R17; no register is hard-wired). -/
def State.reg (s : State) (x : Reg) : Byte := s.v[x.toNat]'x.isLt

/-- `V[x] <- u` (00_scope.md R12). -/
def State.setReg (s : State) (x : Reg) (u : Byte) : State := { s with v := s.v.set x.toNat u x.isLt }

/-- Replace the whole register file. -/
def State.setRegs (s : State) (v : Vector Byte 16) : State := { s with v := v }

/-- `I <- a` (00_scope.md R12). -/
def State.setIndex (s : State) (a : Word) : State := { s with index := a }

/-- `pc <- a` (00_scope.md R12). -/
def State.setPc (s : State) (a : Word) : State := { s with pc := a }

/-- `DT <- u` (00_scope.md R12). -/
def State.setDt (s : State) (u : Byte) : State := { s with dt := u }

/-- `ST <- u` (00_scope.md R12). -/
def State.setSt (s : State) (u : Byte) : State := { s with st := u }

/-- Replace the memory. -/
def State.setMem (s : State) (m : Memory) : State := { s with mem := m }

/-- Replace the framebuffer. -/
def State.setFb (s : State) (fb : Screen) : State := { s with fb := fb }

/-- The byte at address `a`. -/
def State.byteAt (s : State) (a : Nat) : Byte := s.mem.byteAt a

/-- `fb(c, r)` (00_scope.md R12). -/
def State.pixel (s : State) (c r : Nat) : Bool := s.fb.pixel c r

/-- pc + 2, before the handler runs (40_cycle.md R89). The sum is exact after a fetch. -/
def State.advance (s : State) : State := s.setPc (s.pc + 2)

/-- The extra + 2 of a skip whose condition holds (42_skip.md). -/
def State.skipIf (s : State) (c : Bool) : State := s.setPc (if c then s.pc + 2 else s.pc)

/-- Slot `j` of the stack; 0 for the `j` that name no slot, which no instruction reads. -/
def State.slot (s : State) (j : Nat) : Word := s.stack.toList.getD j 0

/-- Save `a` in the next free slot and count it (10_state.md R28). The caller has checked sp < 16; with sp = 16
there is no slot and nothing changes. -/
def State.push (s : State) (a : Word) : State :=
  if h : s.sp.val < 16 then
    { s with stack := s.stack.set s.sp.val a h, sp := ⟨s.sp.val + 1, Nat.succ_lt_succ h⟩ }
  else s

/-- Release the last occupied slot (10_state.md R28); the slot keeps its value (41_control_flow.md R101). -/
def State.pop (s : State) : State :=
  { s with sp := ⟨s.sp.val - 1, Nat.lt_of_le_of_lt (Nat.sub_le _ _) s.sp.isLt⟩ }

/-- The inputs of the next step (40_cycle.md R81): those the host has named, else free values. -/
def State.input (s : State) : StepInput :=
  match s.pending with
  | named :: _ => named
  | [] => ⟨Config.freeKeys s.stepNo, Config.freeDraw s.stepNo⟩

/-- Key `k` in the step's snapshot (60_exceptions.md R160). -/
def State.key (s : State) (k : Fin 16) : Bool := s.input.keys[k]

/-- A step is completed: the next one has inputs of its own (60_exceptions.md R158, R160). -/
def State.nextInput (s : State) : State := { s with pending := s.pending.tail, stepNo := s.stepNo + 1 }

/-- One timer's tick: down by 1 while nonzero, floor 0 (40_cycle.md R91). -/
def tickDown (t : Byte) : Byte := if t = 0 then 0 else t - 1

/-- The tick of both timers (40_cycle.md R91). -/
def State.tick (s : State) : State := (s.setDt (tickDown s.dt)).setSt (tickDown s.st)

/-- Whether the status is `Running`. -/
def RunStatus.isRunning : RunStatus → Bool
  | .running => true
  | .faulted _ _ _ => false

/-- The code of a fault kind (60_exceptions.md R146). -/
def FaultKind.code : FaultKind → Nat
  | .fetchBounds _ => 1
  | .memBounds _ => 2
  | .framebufferBounds _ _ => 3
  | .stackOverflow _ => 4
  | .stackUnderflow _ => 5
  | .keyIndex _ => 6
  | .indexOverflow _ => 7

/-- Take a fault (60_exceptions.md R150, 40_cycle.md R82): the status records the kind, the address `p` of the
faulting instruction and its word; pc is what it was at the start of the step, and nothing else changes. -/
def State.takeFault (s : State) (kind : FaultKind) (p : Word) (opcode : Option Word) : State :=
  { s with pc := p, status := .faulted kind p opcode }

/-- Check, then commit (00_scope.md R13): where the check finds a fault, the instruction `i` takes it on the
state the handler was given, whose pc is p + 2 (10_state.md R22; log entry 10), and writes nothing; else its
effect is `t`. -/
def checked (i : Instr) (s : State) (check : Option FaultKind) (t : State) :
    Host.Outcome State Fault Refusal :=
  match check with
  | none => .next t
  | some kind => .next (s.takeFault kind (s.pc - 2) (some (encode i)))

end Sys2Proof.Machine
end

