-- ==== Sys2Proof/Machine/Flags.lean ====
section
/-! DEFINITION. Every flag computation (10_state.md R20, R21; 43_arithmetic.md R113 to R118; 45_drawing.md
R130). VF is the only flag. -/

namespace Sys2Proof.Machine

/-- `bool(c)` (00_scope.md R11). -/
def flagByte (c : Bool) : Byte := if c then 1 else 0

/-- `VF <- bool(c)`. -/
def State.setFlag (s : State) (c : Bool) : State := s.setReg vf (flagByte c)

/-- The carry of `ADD Vx, Vy`: the exact sum exceeds 255 (43_arithmetic.md R113). -/
def carryOut (a b : Byte) : Bool := decide (a.toNat + b.toNat > 255)

/-- The flag of `SUB` and `SUBN`: strictly greater, not an absence of borrow (43_arithmetic.md R114, R116). -/
def strictlyGreater (a b : Byte) : Bool := decide (a.toNat > b.toNat)

/-- The bit `SHR` shifts out, bit 0 (43_arithmetic.md R115). -/
def lowBitOut (a : Byte) : Bool := a.getLsbD 0

/-- The bit `SHL` shifts out, bit 7 (43_arithmetic.md R117). -/
def highBitOut (a : Byte) : Bool := a.getLsbD 7

/-- The value of the parameter `SHIFT_VF_ORDER` (43_arithmetic.md R118, 90_conflicts.md C1).
DESIGN CHOICE to take the spec's default, log entry 3, unsafe for the words 8Fy6 and 8FyE only. -/
def shiftVfOrder : ShiftVfOrder := .flagFirst

/-- A shift of Vx by `shift`, whose shifted-out bit is `bitOut`, under either order of the flag write
(43_arithmetic.md R118). -/
def State.shiftReg (s : State) (order : ShiftVfOrder) (x : Reg) (shift : Byte → Byte)
    (bitOut : Byte → Bool) : State :=
  match order with
  | .flagFirst =>
    let flagged := s.setFlag (bitOut (s.reg x))
    flagged.setReg x (shift (flagged.reg x))
  | .flagLast => (s.setReg x (shift (s.reg x))).setFlag (bitOut (s.reg x))

end Sys2Proof.Machine
end

