-- ==== Sys2Proof/Machine/Operands.lean ====
section
/-! DEFINITION. Every operand form (30_encoding.md R62, R63): immediates, the offset jump's target, a key
number, the span of memory at I, decimal digits, the register block V0..Vx, a sprite. -/

namespace Sys2Proof.Machine

/-- `zext_16(nnn)` (30_encoding.md R63). -/
def address (nnn : Addr12) : Word := nnn.setWidth 16

/-- The target of `JP V0, nnn`: an exact sum, at most 0x10FE, so it fits 16 bits (41_control_flow.md R102). -/
def offsetTarget (nnn : Addr12) (v0 : Byte) : Word := BitVec.ofNat 16 (nnn.toNat + v0.toNat)

/-- The exact sum of `ADD I, Vx` (44_memory_index.md R122). -/
def indexSum (i : Word) (u : Byte) : Nat := i.toNat + u.toNat

/-- The check of `ADD I, Vx`: the sum must fit the 16-bit I (44_memory_index.md R122). -/
def checkIndexSum (sum : Nat) : Option FaultKind :=
  if sum > 0xFFFF then some (.indexOverflow sum) else none

/-- The address of the glyph of a digit, the whole 8-bit value used (44_memory_index.md R123). -/
def glyphAddress (digit : Byte) : Word := BitVec.ofNat 16 (Config.fontBase + 5 * digit.toNat)

/-- The check of a key number (46_input.md R134, R137). -/
def checkKey (u : Byte) : Option FaultKind :=
  if u.toNat > 15 then some (.keyIndex u) else none

/-- Whether the key numbered `u` is pressed in the step's snapshot; asked only of a checked number. -/
def State.keyPressed (s : State) (u : Byte) : Bool := s.key (Fin.ofNat 16 u.toNat)

/-- The lowest pressed key of a snapshot, scanned from key 0 up (46_input.md R136). -/
def lowestKey (keys : Keys) : Option (Fin 16) := (List.finRange 16).find? fun k => keys[k]

/-- The three decimal digits, hundreds first (44_memory_index.md R124). -/
def decimalDigits (u : Byte) : List Byte := [u / 100, u / 10 % 10, u % 10]

/-- V0 to Vx, ascending (44_memory_index.md R125). -/
def State.regBlock (s : State) (x : Reg) : List Byte := s.v.toList.take (x.toNat + 1)

/-- The registers after V0 to Vx have been read from memory at `a` (44_memory_index.md R126). -/
def State.loadBlock (s : State) (x : Reg) (a : Nat) : Vector Byte 16 :=
  Vector.ofFn fun k : Fin 16 => if k.val ≤ x.toNat then s.byteAt (a + k.val) else s.v[k]

/-- The origin of a sprite, wrapped to the screen (45_drawing.md R129, R131). -/
def spriteOrigin (vx vy : Byte) : Nat × Nat := (vx.toNat % 64, vy.toNat % 32)

/-- The sprite bit for column `col`: bit 7 is column 0 (45_drawing.md R133). -/
def spriteBit (b : Byte) (col : Nat) : Bool := b.getLsbD (7 - col)

/-- The screen coordinates of the set bits of sprite row `row`, columns 0 to 7 in order (45_drawing.md R129):
not reduced modulo the screen (R131). -/
def State.rowPixels (s : State) (origin : Nat × Nat) (row : Nat) : List (Nat × Nat) :=
  ((List.range 8).filter (spriteBit (s.byteAt (s.index.toNat + row)))).map
    fun col => (origin.1 + col, origin.2 + row)

/-- The check of one sprite row: its address before its pixels (45_drawing.md R129, 60_exceptions.md R148). -/
def State.checkRow (s : State) (origin : Nat × Nat) (row : Nat) : Option FaultKind :=
  if s.index.toNat + row > 0xFFF then some (.memBounds (s.index.toNat + row))
  else ((s.rowPixels origin row).find? offScreen).map fun p => .framebufferBounds p.1 p.2

/-- The check phase of `DRW`, row by row from row 0 (45_drawing.md R129). -/
def State.checkSprite (s : State) (origin : Nat × Nat) (n : Nat) : Option FaultKind :=
  (List.range n).findSome? (s.checkRow origin)

/-- The screen coordinates of all set bits of a sprite of `n` rows, row by row (45_drawing.md R129). -/
def State.spritePixels (s : State) (origin : Nat × Nat) (n : Nat) : List (Nat × Nat) :=
  (List.range n).flatMap (s.rowPixels origin)

end Sys2Proof.Machine
end

