-- ==== Sys2Proof/Machine/Arithmetic.lean ====
section
/-! DEFINITION. Register and arithmetic instructions (43_arithmetic.md): unsigned 8-bit arithmetic modulo 256
(R120). A flag is written last, after both operands are read and Vx is written, but for the shifts
(10_state.md R21). -/

namespace Sys2Proof.Machine

/-- `LD Vx, kk` (R107). -/
def execLdImm (x : Reg) (kk : Byte) (s : State) : Host.Outcome State Fault Refusal :=
  .next (s.setReg x kk)

/-- `ADD Vx, kk` (R108): no flag. -/
def execAddImm (x : Reg) (kk : Byte) (s : State) : Host.Outcome State Fault Refusal :=
  .next (s.setReg x (s.reg x + kk))

/-- `LD Vx, Vy` (R109). -/
def execLdReg (x y : Reg) (s : State) : Host.Outcome State Fault Refusal :=
  .next (s.setReg x (s.reg y))

/-- `OR Vx, Vy` (R110): no flag. -/
def execOr (x y : Reg) (s : State) : Host.Outcome State Fault Refusal :=
  .next (s.setReg x (s.reg x ||| s.reg y))

/-- `AND Vx, Vy` (R111): no flag. -/
def execAnd (x y : Reg) (s : State) : Host.Outcome State Fault Refusal :=
  .next (s.setReg x (s.reg x &&& s.reg y))

/-- `XOR Vx, Vy` (R112): no flag. -/
def execXor (x y : Reg) (s : State) : Host.Outcome State Fault Refusal :=
  .next (s.setReg x (s.reg x ^^^ s.reg y))

/-- `ADD Vx, Vy` (R113). -/
def execAddReg (x y : Reg) (s : State) : Host.Outcome State Fault Refusal :=
  .next ((s.setReg x (s.reg x + s.reg y)).setFlag (carryOut (s.reg x) (s.reg y)))

/-- `SUB Vx, Vy` (R114). -/
def execSub (x y : Reg) (s : State) : Host.Outcome State Fault Refusal :=
  .next ((s.setReg x (s.reg x - s.reg y)).setFlag (strictlyGreater (s.reg x) (s.reg y)))

/-- `SHR Vx` (R115, R118): Vy is never read. -/
def execShr (x : Reg) (s : State) : Host.Outcome State Fault Refusal :=
  .next (s.shiftReg shiftVfOrder x (fun a => a >>> 1) lowBitOut)

/-- `SUBN Vx, Vy` (R116). -/
def execSubn (x y : Reg) (s : State) : Host.Outcome State Fault Refusal :=
  .next ((s.setReg x (s.reg y - s.reg x)).setFlag (strictlyGreater (s.reg y) (s.reg x)))

/-- `SHL Vx` (R117, R118): Vy is never read. -/
def execShl (x : Reg) (s : State) : Host.Outcome State Fault Refusal :=
  .next (s.shiftReg shiftVfOrder x (fun a => a <<< 1) highBitOut)

/-- `RND Vx, kk` (R119): the step's draw, masked. -/
def execRnd (x : Reg) (kk : Byte) (s : State) : Host.Outcome State Fault Refusal :=
  .next (s.setReg x (s.input.draw &&& kk))

end Sys2Proof.Machine
end

