-- ==== Sys2Proof/Machine/ControlFlow.lean ====
section
/-! DEFINITION. JP, CALL, RET, JP V0 (41_control_flow.md). In every handler `s.pc` is p + 2, p the address of
the instruction (10_state.md R22). -/

namespace Sys2Proof.Machine

/-- `JP nnn` (R99). -/
def execJp (nnn : Addr12) (s : State) : Host.Outcome State Fault Refusal :=
  .next (s.setPc (address nnn))

/-- `CALL nnn` (R100): the post-increment pc is saved. -/
def execCall (nnn : Addr12) (s : State) : Host.Outcome State Fault Refusal :=
  checked (.call nnn) s (if s.sp.val = 16 then some (.stackOverflow s.sp.val) else none)
    ((s.push s.pc).setPc (address nnn))

/-- `RET` (R101). -/
def execRet (ignored : BitVec 8) (s : State) : Host.Outcome State Fault Refusal :=
  checked (.ret ignored) s (if s.sp.val = 0 then some (.stackUnderflow s.sp.val) else none)
    (s.pop.setPc (s.slot (s.sp.val - 1)))

/-- `JP V0, nnn` (R102): the register is V0, whatever nnn is. -/
def execJpV0 (nnn : Addr12) (s : State) : Host.Outcome State Fault Refusal :=
  .next (s.setPc (offsetTarget nnn (s.reg 0x0#4)))

end Sys2Proof.Machine
end

