-- ==== Sys2Proof/Machine/Drawing.lean ====
section
/-! DEFINITION. CLS and DRW (45_drawing.md). -/

namespace Sys2Proof.Machine

/-- `CLS` (R128): VF is unchanged. -/
def execCls (s : State) : Host.Outcome State Fault Refusal :=
  .next (s.setFb Screen.clear)

/-- `DRW Vx, Vy, n` (R129): the origin is read before VF is written; VF is the collision (R130). -/
def execDrw (x y : Reg) (n : BitVec 4) (s : State) : Host.Outcome State Fault Refusal :=
  let origin := spriteOrigin (s.reg x) (s.reg y)
  let drawn := drawPixels s.fb (s.spritePixels origin n.toNat)
  checked (.drw x y n) s (s.checkSprite origin n.toNat) ((s.setFlag drawn.2).setFb drawn.1)

end Sys2Proof.Machine
end

