-- ==== Sys2Proof/Machine/Input.lean ====
section
/-! DEFINITION. SKP, SKNP and the key-wait (46_input.md). Each reads the step's snapshot only. -/

namespace Sys2Proof.Machine

/-- `SKP Vx` (R134). -/
def execSkp (x : Reg) (ignored : BitVec 4) (s : State) : Host.Outcome State Fault Refusal :=
  checked (.skp x ignored) s (checkKey (s.reg x)) (s.skipIf (s.keyPressed (s.reg x)))

/-- `SKNP Vx` (R135). -/
def execSknp (x : Reg) (ignored : BitVec 4) (s : State) : Host.Outcome State Fault Refusal :=
  checked (.sknp x ignored) s (checkKey (s.reg x)) (s.skipIf (!s.keyPressed (s.reg x)))

/-- `LD Vx, K` (R136): with no key pressed, pc goes back to the instruction's own address. -/
def execLdVxK (x : Reg) (s : State) : Host.Outcome State Fault Refusal :=
  let found := lowestKey s.input.keys
  .next { s with
    v := match found with
      | some k => (s.setReg x (BitVec.ofNat 8 k.val)).v
      | none => s.v
    pc := match found with
      | some _ => s.pc
      | none => s.pc - 2 }

end Sys2Proof.Machine
end

