-- ==== Sys2Proof/Machine/MemoryIndex.lean ====
section
/-! DEFINITION. Memory and index instructions (44_memory_index.md). Every check comes before the first write,
and no instruction that accesses memory through I writes I (R127). -/

namespace Sys2Proof.Machine

/-- `LD I, nnn` (R121). -/
def execLdI (nnn : Addr12) (s : State) : Host.Outcome State Fault Refusal :=
  .next (s.setIndex (address nnn))

/-- `ADD I, Vx` (R122): no flag. -/
def execAddI (x : Reg) (s : State) : Host.Outcome State Fault Refusal :=
  checked (.addI x) s (checkIndexSum (indexSum s.index (s.reg x)))
    (s.setIndex (BitVec.ofNat 16 (indexSum s.index (s.reg x))))

/-- `LD F, Vx` (R123): an address is computed, no memory is accessed. -/
def execLdF (x : Reg) (s : State) : Host.Outcome State Fault Refusal :=
  .next (s.setIndex (glyphAddress (s.reg x)))

/-- `LD B, Vx` (R124). -/
def execLdB (x : Reg) (s : State) : Host.Outcome State Fault Refusal :=
  checked (.ldB x) s (checkSpan s.index.toNat 2)
    (s.setMem (s.mem.storeBytes s.index.toNat (decimalDigits (s.reg x))))

/-- `LD [I], Vx` (R125). -/
def execStoreRegs (x : Reg) (s : State) : Host.Outcome State Fault Refusal :=
  checked (.storeRegs x) s (checkSpan s.index.toNat x.toNat)
    (s.setMem (s.mem.storeBytes s.index.toNat (s.regBlock x)))

/-- `LD Vx, [I]` (R126). -/
def execLoadRegs (x : Reg) (s : State) : Host.Outcome State Fault Refusal :=
  checked (.loadRegs x) s (checkSpan s.index.toNat x.toNat)
    (s.setRegs (s.loadBlock x s.index.toNat))

end Sys2Proof.Machine
end

