-- ==== Sys2Proof/Machine/Null.lean ====
section
/-! DEFINITION. The null instruction (48_null.md). -/

namespace Sys2Proof.Machine

/-- `NOP` (R141): the execute phase changes nothing. -/
def execNop (s : State) : Host.Outcome State Fault Refusal := .next s

end Sys2Proof.Machine
end

