-- ==== Sys2Proof/Machine/Timers.lean ====
section
/-! DEFINITION. Reads and writes of the timers (47_timers.md). The tick is the step's (40_cycle.md R91). -/

namespace Sys2Proof.Machine

/-- `LD Vx, DT` (R138). -/
def execLdVxDT (x : Reg) (s : State) : Host.Outcome State Fault Refusal :=
  .next (s.setReg x s.dt)

/-- `LD DT, Vx` (R139). -/
def execLdDTVx (x : Reg) (s : State) : Host.Outcome State Fault Refusal :=
  .next (s.setDt (s.reg x))

/-- `LD ST, Vx` (R140). -/
def execLdSTVx (x : Reg) (s : State) : Host.Outcome State Fault Refusal :=
  .next (s.setSt (s.reg x))

end Sys2Proof.Machine
end

