-- ==== Sys2Proof/Machine/Cycle.lean ====
section
/-! DEFINITION. The phases of a step around execute (40_cycle.md R83): fetch, pc advance, and the end of a
completed step. -/

namespace Sys2Proof.Machine

/-- The word at `a` and `a + 1`, big-endian (20_memory.md R47). -/
def State.wordAt (s : State) (a : Nat) : Word := joinBytes (s.byteAt a) (s.byteAt (a + 1))

/-- The fetch (40_cycle.md R87): no side effect. -/
def fetch (s : State) : Except FaultKind Word :=
  if s.pc.toNat + 1 > 0xFFF then .error (.fetchBounds s.pc) else .ok (s.wordAt s.pc.toNat)

/-- The end of a step: where it did not fault, both timers tick (40_cycle.md R91, R94) and the step's inputs
are used up. -/
def State.finish (s : State) : State :=
  if s.status.isRunning then s.tick.nextInput else s

/-- The end of a step on what execute answers. -/
def finishOutcome : Host.Outcome State Fault Refusal → Host.Outcome State Fault Refusal
  | .next t => .next t.finish
  | .fault r => .fault r
  | .refused r => .refused r

/-- One cycle of a running machine (40_cycle.md R83). A fetch fault is taken on the state as it stands, with
no opcode (10_state.md R31). -/
def cycle (s : State) : Host.Outcome State Fault Refusal :=
  match fetch s with
  | .error kind => .next (s.takeFault kind s.pc none)
  | .ok w => finishOutcome (exec (decodeWord w) s.advance)

/-- A step: a faulted state has none (40_cycle.md R80). -/
def stepOf (s : State) : Host.Outcome State Fault Refusal :=
  match s.status with
  | .running => cycle s
  | .faulted kind p opcode => .fault (.noStep kind p opcode)

/-- Place a word where the next fetch reads it, in its byte order; a fetch that would fault reads nothing, and
nothing is placed for it. -/
def State.placeWord (s : State) (w : Word) : State :=
  if s.pc.toNat + 1 > 0xFFF then s
  else s.setMem (s.mem.storeBytes s.pc.toNat [firstByte w, secondByte w])

end Sys2Proof.Machine
end

