-- ==== Sys2Proof/Machine/Step.lean ====
section
/-! DEFINITION. One step of the machine, and the placing of an instruction where it is fetched. -/

namespace Sys2Proof.Machine

/-- One step (40_cycle.md R79 to R98). -/
def step (s : State) : Host.Outcome State Fault Refusal := stepOf s

/-- `s` with the instruction that the opcode table numbers `w` stored at pc and pc + 1; it stands for the ROM
loader's work (log entry 8). -/
def State.withFetchWord (s : State) (nbits w : Nat) : State := s.placeWord (tableWord nbits w)

end Sys2Proof.Machine
end

