-- ==== Sys2Proof/Machine/HostSide.lean ====
section
/-! DEFINITION. What the host does to the machine, and what it sees (60_exceptions.md R157 to R163). -/

namespace Sys2Proof.Machine

/-- A launch, the only reset (70_reset_and_hazards.md R169): the reset state with the ROM copied verbatim to
0x200 (R170). A ROM longer than 3584 bytes has no launch state. -/
def State.launch (rom : List Byte) : Option State :=
  if rom.length ≤ Config.memSize - Config.programStart then
    some (State.reset.setMem (State.reset.mem.storeBytes Config.programStart rom))
  else none

/-- The host names the inputs of one further step, after those it has named already (60_exceptions.md R160). -/
def State.supplyInput (s : State) (keys : Keys) (draw : Byte) : State :=
  { s with pending := s.pending ++ [⟨keys, draw⟩] }

/-- What the host displays: true for an on pixel (60_exceptions.md R161). Reading it changes nothing. -/
def State.display (s : State) (c : Fin 64) (r : Fin 32) : Bool := s.pixel c.val r.val

/-- What the host may read of the sound timer (60_exceptions.md R162). -/
def State.sound (s : State) : Byte := s.st

end Sys2Proof.Machine
end

