-- ==== Sys2Proof/Safety.lean ====
section
/-! DEFINITION. What counts as a safe run (60_exceptions.md R164), the invariants of a valid state, and the
frames that statements are made of. -/

namespace Sys2Proof.Machine

/-- After `k` steps from `s` the machine is in `t`. -/
def Reaches (k : Nat) (s t : State) : Prop := Host.Core.run Sys2Proof.core k s = .next t

/-- No state of the first `k` steps from `s` is `Faulted`: what every claim about a run asks for
(60_exceptions.md R150, R164). -/
def SafeFor (k : Nat) (s : State) : Prop :=
  ∀ j, j ≤ k → ∃ t, Reaches j s t ∧ t.status = .running

/-- The memory keeps its canonical form. -/
def State.MemOk (s : State) : Prop := s.mem.wf = true

/-- The bound of 10_state.md R24: pc is at most 0x10FE, and every occupied slot of the stack holds at most
0x1000. -/
def State.PcOk (s : State) : Prop :=
  s.pc.toNat ≤ 0x10FE ∧ ∀ j, j < s.sp.val → (s.slot j).toNat ≤ 0x1000

/-- Every general register but those listed is unchanged. -/
def SameRegsBut (written : List Reg) (s t : State) : Prop := ∀ z, z ∉ written → t.reg z = s.reg z

/-- Every byte of memory is unchanged. -/
def SameMem (s t : State) : Prop := ∀ a, t.byteAt a = s.byteAt a

/-- Every byte of memory outside `a`, ..., `a + n - 1` is unchanged. -/
def SameMemOutside (a n : Nat) (s t : State) : Prop :=
  ∀ b, b < a ∨ a + n ≤ b → t.byteAt b = s.byteAt b

/-- Every pixel is unchanged. -/
def SamePixels (s t : State) : Prop := ∀ c r, t.pixel c r = s.pixel c r

/-- The stack pointer and every slot are unchanged. -/
def SameStack (s t : State) : Prop := t.sp = s.sp ∧ ∀ j, t.slot j = s.slot j

/-- Both timers are unchanged. -/
def SameTimers (s t : State) : Prop := t.dt = s.dt ∧ t.st = s.st

/-- The run status and the model's own input fields are unchanged. -/
def SameControl (s t : State) : Prop :=
  t.status = s.status ∧ t.pending = s.pending ∧ t.stepNo = s.stepNo

/-- Everything is unchanged but the registers listed, and pc, of which this says nothing. -/
def OnlyRegsAndPc (written : List Reg) (s t : State) : Prop :=
  SameRegsBut written s t ∧ t.index = s.index ∧ SameMem s t ∧ SamePixels s t ∧ SameStack s t ∧
    SameTimers s t ∧ SameControl s t

/-- Everything is unchanged but the registers listed. -/
def OnlyRegs (written : List Reg) (s t : State) : Prop := t.pc = s.pc ∧ OnlyRegsAndPc written s t

/-- Everything is unchanged but I. -/
def OnlyIndex (s t : State) : Prop :=
  t.pc = s.pc ∧ SameRegsBut [] s t ∧ SameMem s t ∧ SamePixels s t ∧ SameStack s t ∧ SameTimers s t ∧
    SameControl s t

/-- Everything is unchanged but the bytes `a`, ..., `a + n - 1` of memory. -/
def OnlyBytes (a n : Nat) (s t : State) : Prop :=
  t.pc = s.pc ∧ SameRegsBut [] s t ∧ t.index = s.index ∧ SameMemOutside a n s t ∧ SamePixels s t ∧
    SameStack s t ∧ SameTimers s t ∧ SameControl s t

/-- Everything is unchanged but the stack and pc. -/
def OnlyStackAndPc (s t : State) : Prop :=
  SameRegsBut [] s t ∧ t.index = s.index ∧ SameMem s t ∧ SamePixels s t ∧ SameTimers s t ∧ SameControl s t

/-- Everything is unchanged but the registers listed and the pixels. -/
def OnlyRegsAndPixels (written : List Reg) (s t : State) : Prop :=
  t.pc = s.pc ∧ SameRegsBut written s t ∧ t.index = s.index ∧ SameMem s t ∧ SameStack s t ∧
    SameTimers s t ∧ SameControl s t

/-- Instruction `i`, on a state whose pc is p + 2, takes the fault `k` (60_exceptions.md R147, R150): pc is p
again, the status records the fault, and nothing else changes. -/
def TakesFault (i : Instr) (k : FaultKind) (s t : State) : Prop :=
  t = { s with pc := s.pc - 2, status := .faulted k (s.pc - 2) (some (encode i)) }

/-- `a` is the first address above 0xFFF among `base`, ..., `base + k` (44_memory_index.md `first_oob`). -/
def FirstOutOfRange (base k a : Nat) : Prop :=
  base ≤ a ∧ a ≤ base + k ∧ 0xFFF < a ∧ ∀ b, base ≤ b → b < a → b ≤ 0xFFF

/-- The sprite at I has a set bit in row `row` and column
`col` (45_drawing.md R133). -/
def SpriteSet (s : State) (row col : Nat) : Prop :=
  col < 8 ∧ (s.byteAt (s.index.toNat + row)).getLsbD (7 - col) = true

/-- The screen column of sprite column `col` (45_drawing.md R131): only the origin wraps. -/
def SpriteColumn (s : State) (x : Reg) (col : Nat) : Nat := (s.reg x).toNat % 64 + col

/-- The screen row of sprite row `row` (45_drawing.md R131): only the origin wraps. -/
def SpriteRow (s : State) (y : Reg) (row : Nat) : Nat := (s.reg y).toNat % 32 + row

/-- Row `row` of the sprite can be drawn: its byte exists and its set bits lie on the screen (45_drawing.md
R129). -/
def RowFits (s : State) (x y : Reg) (row : Nat) : Prop :=
  s.index.toNat + row ≤ 0xFFF ∧
    ∀ col, SpriteSet s row col → SpriteColumn s x col ≤ 63 ∧ SpriteRow s y row ≤ 31

/-- All `n` rows of the sprite can be drawn. -/
def SpriteFits (s : State) (x y : Reg) (n : BitVec 4) : Prop := ∀ row, row < n.toNat → RowFits s x y row

/-- A set sprite bit falls on the pixel at column `c` and row `r`. -/
def SpriteCovers (s : State) (x y : Reg) (n : BitVec 4) (c r : Nat) : Prop :=
  ∃ row col, row < n.toNat ∧ SpriteSet s row col ∧ c = SpriteColumn s x col ∧ r = SpriteRow s y row

/-- The general registers an instruction may write (10_state.md R19). -/
def regsWritten : Instr → List Reg
  | .ldImm x _ | .addImm x _ | .ldReg x _ | .or x _ | .and x _ | .xor x _ | .rnd x _ | .ldVxDT x
  | .ldVxK x => [x]
  | .addReg x _ | .sub x _ | .subn x _ | .shr x _ | .shl x _ => [x, 0xF#4]
  | .drw _ _ _ => [0xF#4]
  | .loadRegs x => (List.range (x.toNat + 1)).map (BitVec.ofNat 4)
  | .cls _ | .ret _ | .jp _ | .call _ | .seImm _ _ | .sneImm _ _ | .seReg _ _ _ | .sneReg _ _ _ | .ldI _
  | .jpV0 _ | .skp _ _ | .sknp _ _ | .ldDTVx _ | .ldSTVx _ | .addI _ | .ldF _ | .ldB _ | .storeRegs _
  | .nop _ => []

/-- The mask and match of each row of the opcode map (30_encoding.md R73), NOP apart. -/
def opcodeRows : List (Word × Word) :=
  [(0xF00F, 0x0000), (0xF00F, 0x000E), (0xF000, 0x1000), (0xF000, 0x2000), (0xF000, 0x3000),
   (0xF000, 0x4000), (0xF000, 0x5000), (0xF000, 0x6000), (0xF000, 0x7000), (0xF00F, 0x8000),
   (0xF00F, 0x8001), (0xF00F, 0x8002)] ++
  [(0xF00F, 0x8003), (0xF00F, 0x8004), (0xF00F, 0x8005), (0xF00F, 0x8006), (0xF00F, 0x8007),
   (0xF00F, 0x800E), (0xF000, 0x9000), (0xF000, 0xA000), (0xF000, 0xB000), (0xF000, 0xC000),
   (0xF000, 0xD000), (0xF00F, 0xE00E)] ++
  [(0xF00F, 0xE001), (0xF0FF, 0xF007), (0xF0FF, 0xF00A), (0xF0FF, 0xF015), (0xF0FF, 0xF018),
   (0xF0FF, 0xF01E), (0xF0FF, 0xF029), (0xF0FF, 0xF033), (0xF0FF, 0xF055), (0xF0FF, 0xF065)]

/-- The two states differ at most in stack slots that are not occupied (10_state.md R34). -/
def SameButFreeSlots (s t : State) : Prop :=
  t = { s with stack := t.stack } ∧ ∀ j, j < s.sp.val → t.slot j = s.slot j

/-- The two states differ at most in what the host has named for the coming steps. -/
def SameButInputs (s t : State) : Prop := t = { s with pending := t.pending, stepNo := t.stepNo }

end Sys2Proof.Machine
end

