-- ==== Sys2Proof/Certificates/Slice0/Obligations.lean ====
section
/-! DEFINITION. The statements for the provers. A handler is given a state whose pc is p + 2, p the address of
the instruction (10_state.md R22), so `s.pc` below is the pc after the advance.

Where a statement says how a word routes, the number of the opcode is the spec's (30_encoding.md R73), which
the spec marks as general knowledge for all but `8xy5`, `Fx55` and `Fx65` (log entry 6). -/

open Sys2Proof Sys2Proof.Machine

/-! ## Control flow -/

/-- `JP nnn` (41_control_flow.md) leaves pc = nnn and touches nothing else. A jump to its own address is a loop:
that each of its steps changes the timers alone is the spec's own inference (70_reset_and_hazards.md R178), and
that it uses up the step's inputs, the model's own fields, is the model's choice (log entry 2). -/
def Obligations.JumpLeavesTheTarget : Prop :=
  (∀ w : Word, w &&& 0xF000#16 = 0x1000#16 → decodeWord w = .jp (w.extractLsb' 0 12)) ∧
  (∀ (nnn : Addr12) (s : State), ∃ t, exec (.jp nnn) s = .next t ∧
    t.pc.toNat = nnn.toNat ∧ OnlyRegsAndPc [] s t) ∧
  ∀ (s : State) (nnn : Addr12), s.status = .running → s.pc.toNat ≤ 0xFFE → nnn.toNat = s.pc.toNat →
    decodeWord (s.byteAt s.pc.toNat ++ s.byteAt (s.pc.toNat + 1)) = .jp nnn →
    ∃ t, step s = .next t ∧
      t = { s with dt := t.dt, st := t.st, pending := s.pending.tail, stepNo := s.stepNo + 1 } ∧
      t.dt.toNat = s.dt.toNat - 1 ∧ t.st.toNat = s.st.toNat - 1

/-- `CALL nnn` (41_control_flow.md) saves the post-increment pc in the next free slot, and faults where all 16
are in use. The fault is the spec's decision D5 (log entry 6). -/
def Obligations.CallSavesThePostIncrementPc : Prop :=
  (∀ w : Word, w &&& 0xF000#16 = 0x2000#16 → decodeWord w = .call (w.extractLsb' 0 12)) ∧
  ∀ (nnn : Addr12) (s : State),
    (s.sp.val < 16 → ∃ t, exec (.call nnn) s = .next t ∧ t.pc.toNat = nnn.toNat ∧
      t.sp.val = s.sp.val + 1 ∧ t.slot s.sp.val = s.pc ∧ (∀ j, j ≠ s.sp.val → t.slot j = s.slot j) ∧
      OnlyStackAndPc s t) ∧
    (s.sp.val = 16 → ∃ t, exec (.call nnn) s = .next t ∧
      TakesFault (.call nnn) (.stackOverflow 16) s t)

/-- `RET` (41_control_flow.md) restores pc from the last occupied slot and does not clear it, and faults where
none is occupied. The fault is the spec's decision D5 (log entry 6). -/
def Obligations.ReturnRestoresTheSavedPc : Prop :=
  (∀ w : Word, w &&& 0xF00F#16 = 0x000E#16 → decodeWord w = .ret (w.extractLsb' 4 8)) ∧
  ∀ (d : BitVec 8) (s : State),
    (0 < s.sp.val → ∃ t, exec (.ret d) s = .next t ∧ t.pc = s.slot (s.sp.val - 1) ∧
      t.sp.val = s.sp.val - 1 ∧ (∀ j, t.slot j = s.slot j) ∧ OnlyStackAndPc s t) ∧
    (s.sp.val = 0 → ∃ t, exec (.ret d) s = .next t ∧ TakesFault (.ret d) (.stackUnderflow 0) s t)

/-- 41_control_flow.md R102: the target of `JP V0, nnn` is the exact sum of nnn and V0, whatever nnn is. -/
def Obligations.OffsetJumpAddsV0Exactly : Prop :=
  (∀ w : Word, w &&& 0xF000#16 = 0xB000#16 → decodeWord w = .jpV0 (w.extractLsb' 0 12)) ∧
  ∀ (nnn : Addr12) (s : State), ∃ t, exec (.jpV0 nnn) s = .next t ∧
    t.pc.toNat = nnn.toNat + (s.reg 0x0#4).toNat ∧ OnlyRegsAndPc [] s t

/-- `CALL` then `RET` is the identity on sp and leaves pc at the CALL's post-increment pc (41_control_flow.md,
90_conflicts.md C9). -/
def Obligations.CallThenReturnRoundTrips : Prop :=
  ∀ (nnn : Addr12) (d : BitVec 8) (s : State), s.sp.val < 16 →
    ∃ t u, exec (.call nnn) s = .next t ∧ exec (.ret d) t = .next u ∧ u.pc = s.pc ∧ u.sp = s.sp ∧
      u.status = s.status

/-! ## Conditional skip -/

/-- 42_skip.md R103. -/
def Obligations.SkipIfRegisterEqualsImmediate : Prop :=
  (∀ w : Word, w &&& 0xF000#16 = 0x3000#16 →
    decodeWord w = .seImm (w.extractLsb' 8 4) (w.extractLsb' 0 8)) ∧
  ∀ (x : Reg) (kk : Byte) (s : State), ∃ t, exec (.seImm x kk) s = .next t ∧
    t.pc = (if s.reg x = kk then s.pc + 2 else s.pc) ∧ OnlyRegsAndPc [] s t

/-- 42_skip.md R104. -/
def Obligations.SkipIfRegisterDiffersFromImmediate : Prop :=
  (∀ w : Word, w &&& 0xF000#16 = 0x4000#16 →
    decodeWord w = .sneImm (w.extractLsb' 8 4) (w.extractLsb' 0 8)) ∧
  ∀ (x : Reg) (kk : Byte) (s : State), ∃ t, exec (.sneImm x kk) s = .next t ∧
    t.pc = (if s.reg x = kk then s.pc else s.pc + 2) ∧ OnlyRegsAndPc [] s t

/-- `SE Vx, Vy` (42_skip.md). That the `n` field takes no part is the spec's own inference (30_encoding.md R70
marks it derived). -/
def Obligations.SkipIfRegistersEqual : Prop :=
  (∀ w : Word, w &&& 0xF000#16 = 0x5000#16 →
    decodeWord w = .seReg (w.extractLsb' 8 4) (w.extractLsb' 4 4) (w.extractLsb' 0 4)) ∧
  ∀ (x y : Reg) (d : BitVec 4) (s : State), ∃ t, exec (.seReg x y d) s = .next t ∧
    t.pc = (if s.reg x = s.reg y then s.pc + 2 else s.pc) ∧ OnlyRegsAndPc [] s t

/-- `SNE Vx, Vy` (42_skip.md). That the `n` field takes no part is the spec's own inference (30_encoding.md R70
marks it derived). -/
def Obligations.SkipIfRegistersDiffer : Prop :=
  (∀ w : Word, w &&& 0xF000#16 = 0x9000#16 →
    decodeWord w = .sneReg (w.extractLsb' 8 4) (w.extractLsb' 4 4) (w.extractLsb' 0 4)) ∧
  ∀ (x y : Reg) (d : BitVec 4) (s : State), ∃ t, exec (.sneReg x y d) s = .next t ∧
    t.pc = (if s.reg x = s.reg y then s.pc else s.pc + 2) ∧ OnlyRegsAndPc [] s t

/-! ## Registers and arithmetic -/

/-- `LD Vx, kk` and `LD Vx, Vy` (43_arithmetic.md): existence and meaning are the spec's decision D15. -/
def Obligations.LoadsCopyTheirSource : Prop :=
  (∀ w : Word, w &&& 0xF000#16 = 0x6000#16 →
    decodeWord w = .ldImm (w.extractLsb' 8 4) (w.extractLsb' 0 8)) ∧
  (∀ w : Word, w &&& 0xF00F#16 = 0x8000#16 →
    decodeWord w = .ldReg (w.extractLsb' 8 4) (w.extractLsb' 4 4)) ∧
  (∀ (x : Reg) (kk : Byte) (s : State), ∃ t, exec (.ldImm x kk) s = .next t ∧ t.reg x = kk ∧
    OnlyRegs [x] s t) ∧
  ∀ (x y : Reg) (s : State), ∃ t, exec (.ldReg x y) s = .next t ∧ t.reg x = s.reg y ∧ OnlyRegs [x] s t

/-- `ADD Vx, kk` (43_arithmetic.md) wraps modulo 256 and writes no flag, by the spec's decision D16. -/
def Obligations.AddImmediateWritesNoFlag : Prop :=
  (∀ w : Word, w &&& 0xF000#16 = 0x7000#16 →
    decodeWord w = .addImm (w.extractLsb' 8 4) (w.extractLsb' 0 8)) ∧
  ∀ (x : Reg) (kk : Byte) (s : State), ∃ t, exec (.addImm x kk) s = .next t ∧
    (t.reg x).toNat = ((s.reg x).toNat + kk.toNat) % 256 ∧ OnlyRegs [x] s t

/-- `OR`, `AND` and `XOR` (43_arithmetic.md), bit by bit; none writes a flag, by the spec's decision D16. -/
def Obligations.BitwiseOperationsWriteNoFlag : Prop :=
  (∀ w : Word, w &&& 0xF00F#16 = 0x8001#16 →
    decodeWord w = .or (w.extractLsb' 8 4) (w.extractLsb' 4 4)) ∧
  (∀ w : Word, w &&& 0xF00F#16 = 0x8002#16 →
    decodeWord w = .and (w.extractLsb' 8 4) (w.extractLsb' 4 4)) ∧
  (∀ w : Word, w &&& 0xF00F#16 = 0x8003#16 →
    decodeWord w = .xor (w.extractLsb' 8 4) (w.extractLsb' 4 4)) ∧
  ∀ (x y : Reg) (s : State),
    (∃ t, exec (.or x y) s = .next t ∧ OnlyRegs [x] s t ∧
      ∀ k, (t.reg x).getLsbD k = ((s.reg x).getLsbD k || (s.reg y).getLsbD k)) ∧
    (∃ t, exec (.and x y) s = .next t ∧ OnlyRegs [x] s t ∧
      ∀ k, (t.reg x).getLsbD k = ((s.reg x).getLsbD k && (s.reg y).getLsbD k)) ∧
    (∃ t, exec (.xor x y) s = .next t ∧ OnlyRegs [x] s t ∧
      ∀ k, (t.reg x).getLsbD k = ((s.reg x).getLsbD k ^^ (s.reg y).getLsbD k))

/-- 43_arithmetic.md R113: the sum modulo 256, then the carry, written last, so that it is what VF holds
even when x is VF. -/
def Obligations.AddRegistersSetsCarryLast : Prop :=
  (∀ w : Word, w &&& 0xF00F#16 = 0x8004#16 →
    decodeWord w = .addReg (w.extractLsb' 8 4) (w.extractLsb' 4 4)) ∧
  ∀ (x y : Reg) (s : State), ∃ t, exec (.addReg x y) s = .next t ∧
    (x ≠ 0xF#4 → (t.reg x).toNat = ((s.reg x).toNat + (s.reg y).toNat) % 256) ∧
    t.reg 0xF#4 = (if (s.reg x).toNat + (s.reg y).toNat > 255 then 1 else 0) ∧
    OnlyRegs [x, 0xF#4] s t

/-- 43_arithmetic.md R114: the difference modulo 256, then VF = 1 iff Vx > Vy, written last. -/
def Obligations.SubSetsStrictComparisonLast : Prop :=
  (∀ w : Word, w &&& 0xF00F#16 = 0x8005#16 →
    decodeWord w = .sub (w.extractLsb' 8 4) (w.extractLsb' 4 4)) ∧
  ∀ (x y : Reg) (s : State), ∃ t, exec (.sub x y) s = .next t ∧
    (x ≠ 0xF#4 → ((t.reg x).toNat : Int) = ((s.reg x).toNat - (s.reg y).toNat : Int) % 256) ∧
    t.reg 0xF#4 = (if (s.reg x).toNat > (s.reg y).toNat then 1 else 0) ∧
    OnlyRegs [x, 0xF#4] s t

/-- 43_arithmetic.md R116: the reversed difference modulo 256, then VF = 1 iff Vy > Vx, written last. -/
def Obligations.SubnSetsStrictComparisonLast : Prop :=
  (∀ w : Word, w &&& 0xF00F#16 = 0x8007#16 →
    decodeWord w = .subn (w.extractLsb' 8 4) (w.extractLsb' 4 4)) ∧
  ∀ (x y : Reg) (s : State), ∃ t, exec (.subn x y) s = .next t ∧
    (x ≠ 0xF#4 → ((t.reg x).toNat : Int) = ((s.reg y).toNat - (s.reg x).toNat : Int) % 256) ∧
    t.reg 0xF#4 = (if (s.reg y).toNat > (s.reg x).toNat then 1 else 0) ∧
    OnlyRegs [x, 0xF#4] s t

/-- `SHR Vx` (43_arithmetic.md): for x other than VF, half of Vx and the bit shifted out. For x = VF the result
is the one of the parameter value FLAG_FIRST, the spec's decision D9 (90_conflicts.md C1), taken by log
entry 3. -/
def Obligations.ShiftRightMovesBitZeroToVF : Prop :=
  (∀ w : Word, w &&& 0xF00F#16 = 0x8006#16 →
    decodeWord w = .shr (w.extractLsb' 8 4) (w.extractLsb' 4 4)) ∧
  ∀ (x : Reg) (d : BitVec 4) (s : State), ∃ t, exec (.shr x d) s = .next t ∧
    (x ≠ 0xF#4 → (t.reg x).toNat = (s.reg x).toNat / 2 ∧ (t.reg 0xF#4).toNat = (s.reg x).toNat % 2) ∧
    (x = 0xF#4 → t.reg 0xF#4 = 0) ∧
    OnlyRegs [x, 0xF#4] s t

/-- `SHL Vx` (43_arithmetic.md): for x other than VF, twice Vx modulo 256 and the bit shifted out. For x = VF
the result is the one of the parameter value FLAG_FIRST, the spec's decision D9 (90_conflicts.md C1), taken by
log entry 3. -/
def Obligations.ShiftLeftMovesBitSevenToVF : Prop :=
  (∀ w : Word, w &&& 0xF00F#16 = 0x800E#16 →
    decodeWord w = .shl (w.extractLsb' 8 4) (w.extractLsb' 4 4)) ∧
  ∀ (x : Reg) (d : BitVec 4) (s : State), ∃ t, exec (.shl x d) s = .next t ∧
    (x ≠ 0xF#4 → (t.reg x).toNat = 2 * (s.reg x).toNat % 256 ∧
      (t.reg 0xF#4).toNat = (s.reg x).toNat / 128) ∧
    (x = 0xF#4 → (t.reg 0xF#4).toNat = 2 * ((s.reg x).toNat / 128)) ∧
    OnlyRegs [x, 0xF#4] s t

/-- The two values of SHIFT_VF_ORDER differ only when x is VF (43_arithmetic.md, D9): then FLAG_LAST leaves the
bit shifted out. -/
def Obligations.ShiftOrdersAgreeOffVF : Prop :=
  ∀ (x : Reg) (shift : Byte → Byte) (bitOut : Byte → Bool) (s : State),
    (x ≠ 0xF#4 → ∀ z, (s.shiftReg .flagFirst x shift bitOut).reg z =
      (s.shiftReg .flagLast x shift bitOut).reg z) ∧
    (s.shiftReg .flagLast x shift bitOut).reg 0xF#4 = (if bitOut (s.reg x) then 1 else 0)

/-- `RND Vx, kk` (43_arithmetic.md) masks the step's draw, a free value by the spec's decision D19 (log entry
2): whatever the draw, the bits clear in kk are clear. -/
def Obligations.RandomIsTheDrawMasked : Prop :=
  (∀ w : Word, w &&& 0xF000#16 = 0xC000#16 →
    decodeWord w = .rnd (w.extractLsb' 8 4) (w.extractLsb' 0 8)) ∧
  ∀ (x : Reg) (kk : Byte) (s : State), ∃ t, exec (.rnd x kk) s = .next t ∧ OnlyRegs [x] s t ∧
    ∀ k, (t.reg x).getLsbD k = (s.input.draw.getLsbD k && kk.getLsbD k)

/-! ## Memory and index -/

/-- 44_memory_index.md R121. -/
def Obligations.LoadIndexImmediate : Prop :=
  (∀ w : Word, w &&& 0xF000#16 = 0xA000#16 → decodeWord w = .ldI (w.extractLsb' 0 12)) ∧
  ∀ (nnn : Addr12) (s : State), ∃ t, exec (.ldI nnn) s = .next t ∧
    t.index.toNat = nnn.toNat ∧ OnlyIndex s t

/-- `ADD I, Vx` (44_memory_index.md): the exact sum where it fits 16 bits, else a fault that records it; no
flag. The fault is the spec's decision D7, the absence of a flag D16 (log entry 6). -/
def Obligations.AddIndexIsExactOrFaults : Prop :=
  (∀ w : Word, w &&& 0xF0FF#16 = 0xF01E#16 → decodeWord w = .addI (w.extractLsb' 8 4)) ∧
  ∀ (x : Reg) (s : State),
    (s.index.toNat + (s.reg x).toNat ≤ 0xFFFF → ∃ t, exec (.addI x) s = .next t ∧
      t.index.toNat = s.index.toNat + (s.reg x).toNat ∧ OnlyIndex s t) ∧
    (0xFFFF < s.index.toNat + (s.reg x).toNat → ∃ t, exec (.addI x) s = .next t ∧
      TakesFault (.addI x) (.indexOverflow (s.index.toNat + (s.reg x).toNat)) s t)

/-- `LD F, Vx` (44_memory_index.md): 0x050 + 5 * Vx for the whole 8-bit Vx, by the spec's decision D11
(90_conflicts.md C8). -/
def Obligations.GlyphAddressUsesTheWholeRegister : Prop :=
  (∀ w : Word, w &&& 0xF0FF#16 = 0xF029#16 → decodeWord w = .ldF (w.extractLsb' 8 4)) ∧
  ∀ (x : Reg) (s : State), ∃ t, exec (.ldF x) s = .next t ∧
    t.index.toNat = 0x050 + 5 * (s.reg x).toNat ∧ OnlyIndex s t

/-- `LD B, Vx` (44_memory_index.md): hundreds, tens and ones at I, I + 1, I + 2, or a fault that names the first
address above 0xFFF and leaves every byte. The fault is the spec's decision D3 (log entry 6). The premise
`MemOk` is the invariant of `MemoryStaysCanonical`. -/
def Obligations.DecimalDigitsAreStoredAtIndex : Prop :=
  (∀ w : Word, w &&& 0xF0FF#16 = 0xF033#16 → decodeWord w = .ldB (w.extractLsb' 8 4)) ∧
  ∀ (x : Reg) (s : State), s.MemOk →
    (s.index.toNat + 2 ≤ 0xFFF → ∃ t, exec (.ldB x) s = .next t ∧
      (t.byteAt s.index.toNat).toNat = (s.reg x).toNat / 100 ∧
      (t.byteAt (s.index.toNat + 1)).toNat = (s.reg x).toNat / 10 % 10 ∧
      (t.byteAt (s.index.toNat + 2)).toNat = (s.reg x).toNat % 10 ∧
      OnlyBytes s.index.toNat 3 s t) ∧
    (∀ a, FirstOutOfRange s.index.toNat 2 a → ∃ t, exec (.ldB x) s = .next t ∧
      TakesFault (.ldB x) (.memBounds a) s t)

/-- `LD [I], Vx` (44_memory_index.md): V0 to Vx at I to I + x, or a fault that names the first address above
0xFFF and leaves every byte. The fault is the spec's decision D3 (log entry 6). The premise `MemOk` is the
invariant of `MemoryStaysCanonical`. -/
def Obligations.RegisterBlockIsStoredAtIndex : Prop :=
  (∀ w : Word, w &&& 0xF0FF#16 = 0xF055#16 → decodeWord w = .storeRegs (w.extractLsb' 8 4)) ∧
  ∀ (x : Reg) (s : State), s.MemOk →
    (s.index.toNat + x.toNat ≤ 0xFFF → ∃ t, exec (.storeRegs x) s = .next t ∧
      (∀ z : Reg, z.toNat ≤ x.toNat → t.byteAt (s.index.toNat + z.toNat) = s.reg z) ∧
      OnlyBytes s.index.toNat (x.toNat + 1) s t) ∧
    (∀ a, FirstOutOfRange s.index.toNat x.toNat a → ∃ t, exec (.storeRegs x) s = .next t ∧
      TakesFault (.storeRegs x) (.memBounds a) s t)

/-- `LD Vx, [I]` (44_memory_index.md): V0 to Vx from I to I + x and no other register, or a fault that names the
first address above 0xFFF and leaves every register. The fault is the spec's decision D3 (log entry 6). -/
def Obligations.RegisterBlockIsLoadedFromIndex : Prop :=
  (∀ w : Word, w &&& 0xF0FF#16 = 0xF065#16 → decodeWord w = .loadRegs (w.extractLsb' 8 4)) ∧
  ∀ (x : Reg) (s : State),
    (s.index.toNat + x.toNat ≤ 0xFFF → ∃ t, exec (.loadRegs x) s = .next t ∧
      (∀ z : Reg, z.toNat ≤ x.toNat → t.reg z = s.byteAt (s.index.toNat + z.toNat)) ∧
      (∀ z : Reg, x.toNat < z.toNat → t.reg z = s.reg z) ∧
      OnlyRegs (regsWritten (.loadRegs x)) s t) ∧
    (∀ a, FirstOutOfRange s.index.toNat x.toNat a → ∃ t, exec (.loadRegs x) s = .next t ∧
      TakesFault (.loadRegs x) (.memBounds a) s t)

/-- A block stored and loaded again, by any state with that memory and that I, gives V0 to Vx back
(95_test_vectors.md V-SRC-7). The premise `MemOk` is the invariant of `MemoryStaysCanonical`. -/
def Obligations.StoredBlockLoadsBack : Prop :=
  ∀ (x : Reg) (s : State), s.MemOk → s.index.toNat + x.toNat ≤ 0xFFF →
    ∃ t, exec (.storeRegs x) s = .next t ∧
      ∀ u : State, u.mem = t.mem → u.index = t.index →
        ∃ r, exec (.loadRegs x) u = .next r ∧ ∀ z : Reg, z.toNat ≤ x.toNat → r.reg z = s.reg z

/-! ## Drawing -/

/-- 45_drawing.md R128: every pixel off, VF unchanged; every word `0xx0` is `CLS`. -/
def Obligations.ClearTurnsEveryPixelOff : Prop :=
  (∀ w : Word, w &&& 0xF00F#16 = 0x0000#16 → decodeWord w = .cls (w.extractLsb' 4 8)) ∧
  ∀ (d : BitVec 8) (s : State), ∃ t, exec (.cls d) s = .next t ∧
    (∀ c r, c < 64 → r < 32 → t.pixel c r = false) ∧ OnlyRegsAndPixels [] s t

/-- `DRW Vx, Vy, n` (45_drawing.md) where the sprite fits: each pixel under a set bit is turned over and no
other, VF is the collision, the origin is read before VF is written. That order is the spec's decision D10, and
that bit 7 is column 0 is D13 (log entry 6). -/
def Obligations.DrawXorsTheSprite : Prop :=
  (∀ w : Word, w &&& 0xF000#16 = 0xD000#16 →
    decodeWord w = .drw (w.extractLsb' 8 4) (w.extractLsb' 4 4) (w.extractLsb' 0 4)) ∧
  ∀ (x y : Reg) (n : BitVec 4) (s : State), SpriteFits s x y n →
    ∃ t, exec (.drw x y n) s = .next t ∧
      (∀ c r, SpriteCovers s x y n c r → t.pixel c r = !s.pixel c r) ∧
      (∀ c r, ¬SpriteCovers s x y n c r → t.pixel c r = s.pixel c r) ∧
      ((∃ c r, SpriteCovers s x y n c r ∧ s.pixel c r = true) → t.reg 0xF#4 = 1) ∧
      ((¬∃ c r, SpriteCovers s x y n c r ∧ s.pixel c r = true) → t.reg 0xF#4 = 0) ∧
      OnlyRegsAndPixels [0xF#4] s t

/-- `DRW Vx, Vy, n` (45_drawing.md, 60_exceptions.md) where the sprite does not fit: the first row that does not
fit decides, its address before its pixels, its pixels from column 0; nothing is drawn. The faults and their
order are the spec's decisions D3, D4 and D8 (log entry 6). -/
def Obligations.DrawFaultsOnTheFirstBadRow : Prop :=
  ∀ (x y : Reg) (n : BitVec 4) (s : State) (row : Nat), row < n.toNat →
    (∀ r, r < row → RowFits s x y r) →
    (0xFFF < s.index.toNat + row → ∃ t, exec (.drw x y n) s = .next t ∧
      TakesFault (.drw x y n) (.memBounds (s.index.toNat + row)) s t) ∧
    (s.index.toNat + row ≤ 0xFFF → ∀ col, SpriteSet s row col →
      (63 < SpriteColumn s x col ∨ 31 < SpriteRow s y row) →
      (∀ c, c < col → SpriteSet s row c → SpriteColumn s x c ≤ 63 ∧ SpriteRow s y row ≤ 31) →
      ∃ t, exec (.drw x y n) s = .next t ∧
        TakesFault (.drw x y n) (.framebufferBounds (SpriteColumn s x col) (SpriteRow s y row)) s t)

/-- A sprite drawn twice at one place (45_drawing.md, 90_conflicts.md C7): every pixel is as before the first
draw, and the second VF is 1 iff some set bit's pixel was off before the first. -/
def Obligations.DrawingTwiceRestoresTheScreen : Prop :=
  ∀ (x y : Reg) (n : BitVec 4) (s : State), SpriteFits s x y n →
    ∃ t, exec (.drw x y n) s = .next t ∧
      ∀ u : State, u.fb = t.fb → u.mem = t.mem → u.index = t.index → u.reg x = s.reg x →
        u.reg y = s.reg y →
        ∃ r, exec (.drw x y n) u = .next r ∧ SamePixels s r ∧
          (r.reg 0xF#4 = 1 ↔ ∃ a b, SpriteCovers s x y n a b ∧ s.pixel a b = false)

/-! ## Input -/

/-- `SKP Vx` (46_input.md) tests the step's snapshot at key Vx, and faults where Vx names no key; the fault is
the spec's decision D6 (log entry 6), the snapshot a free value (log entry 2). -/
def Obligations.SkipIfKeyPressed : Prop :=
  (∀ w : Word, w &&& 0xF00F#16 = 0xE00E#16 →
    decodeWord w = .skp (w.extractLsb' 8 4) (w.extractLsb' 4 4)) ∧
  ∀ (x : Reg) (d : BitVec 4) (s : State),
    (∀ h : (s.reg x).toNat < 16, ∃ t, exec (.skp x d) s = .next t ∧
      t.pc = (if s.input.keys[(s.reg x).toNat] then s.pc + 2 else s.pc) ∧ OnlyRegsAndPc [] s t) ∧
    (16 ≤ (s.reg x).toNat → ∃ t, exec (.skp x d) s = .next t ∧
      TakesFault (.skp x d) (.keyIndex (s.reg x)) s t)

/-- `SKNP Vx` (46_input.md), as `SKP` with the condition turned round. -/
def Obligations.SkipIfKeyNotPressed : Prop :=
  (∀ w : Word, w &&& 0xF00F#16 = 0xE001#16 →
    decodeWord w = .sknp (w.extractLsb' 8 4) (w.extractLsb' 4 4)) ∧
  ∀ (x : Reg) (d : BitVec 4) (s : State),
    (∀ h : (s.reg x).toNat < 16, ∃ t, exec (.sknp x d) s = .next t ∧
      t.pc = (if s.input.keys[(s.reg x).toNat] then s.pc else s.pc + 2) ∧ OnlyRegsAndPc [] s t) ∧
    (16 ≤ (s.reg x).toNat → ∃ t, exec (.sknp x d) s = .next t ∧
      TakesFault (.sknp x d) (.keyIndex (s.reg x)) s t)

/-- 46_input.md R136: the lowest pressed key goes to Vx; with no key pressed pc goes back by 2 and nothing
else changes, so that the whole step ends at the instruction's own address, and it is a step like any other:
the timers tick. -/
def Obligations.KeyWaitTakesTheLowestKey : Prop :=
  (∀ w : Word, w &&& 0xF0FF#16 = 0xF00A#16 → decodeWord w = .ldVxK (w.extractLsb' 8 4)) ∧
  (∀ (x : Reg) (s : State),
    (∀ k : Fin 16, s.input.keys[k] = true → (∀ j : Fin 16, j < k → s.input.keys[j] = false) →
      ∃ t, exec (.ldVxK x) s = .next t ∧ (t.reg x).toNat = k.val ∧ OnlyRegs [x] s t) ∧
    ((∀ k : Fin 16, s.input.keys[k] = false) →
      ∃ t, exec (.ldVxK x) s = .next t ∧ t.pc = s.pc - 2 ∧ OnlyRegsAndPc [] s t)) ∧
  ∀ (x : Reg) (s : State), s.status = .running → s.pc.toNat ≤ 0xFFE →
    decodeWord (s.byteAt s.pc.toNat ++ s.byteAt (s.pc.toNat + 1)) = .ldVxK x →
    (∀ k : Fin 16, s.input.keys[k] = false) →
    ∃ t, step s = .next t ∧ t.status = .running ∧ t.pc = s.pc ∧ SameRegsBut [] s t ∧
      t.dt.toNat = s.dt.toNat - 1 ∧ t.st.toNat = s.st.toNat - 1

/-! ## Timers and NOP -/

/-- 47_timers.md R138: Vx receives DT as it was at the start of the step, and the same step's tick then lowers
DT. -/
def Obligations.ReadDelayTimer : Prop :=
  (∀ w : Word, w &&& 0xF0FF#16 = 0xF007#16 → decodeWord w = .ldVxDT (w.extractLsb' 8 4)) ∧
  (∀ (x : Reg) (s : State), ∃ t, exec (.ldVxDT x) s = .next t ∧ t.reg x = s.dt ∧ OnlyRegs [x] s t) ∧
  ∀ (s : State) (x : Reg), s.status = .running → s.pc.toNat ≤ 0xFFE →
    decodeWord (s.byteAt s.pc.toNat ++ s.byteAt (s.pc.toNat + 1)) = .ldVxDT x →
    ∃ t, step s = .next t ∧ t.reg x = s.dt ∧ t.dt.toNat = s.dt.toNat - 1

/-- 47_timers.md R139: DT takes Vx in the execute phase, and ends the step one lower, or at 0. -/
def Obligations.SetDelayTimer : Prop :=
  (∀ w : Word, w &&& 0xF0FF#16 = 0xF015#16 → decodeWord w = .ldDTVx (w.extractLsb' 8 4)) ∧
  (∀ (x : Reg) (s : State), ∃ t, exec (.ldDTVx x) s = .next t ∧ t.dt = s.reg x ∧ t.st = s.st ∧
    t.pc = s.pc ∧ SameRegsBut [] s t ∧ t.index = s.index ∧ SameMem s t ∧ SamePixels s t ∧
    SameStack s t ∧ SameControl s t) ∧
  ∀ (s : State) (x : Reg), s.status = .running → s.pc.toNat ≤ 0xFFE →
    decodeWord (s.byteAt s.pc.toNat ++ s.byteAt (s.pc.toNat + 1)) = .ldDTVx x →
    ∃ t, step s = .next t ∧ t.dt.toNat = (s.reg x).toNat - 1

/-- `LD ST, Vx` (47_timers.md): ST takes Vx in the execute phase, and ends the step one lower, or at 0. That no
instruction reads ST is `TimersAreReadByOneInstruction`. -/
def Obligations.SetSoundTimer : Prop :=
  (∀ w : Word, w &&& 0xF0FF#16 = 0xF018#16 → decodeWord w = .ldSTVx (w.extractLsb' 8 4)) ∧
  (∀ (x : Reg) (s : State), ∃ t, exec (.ldSTVx x) s = .next t ∧ t.st = s.reg x ∧ t.dt = s.dt ∧
    t.pc = s.pc ∧ SameRegsBut [] s t ∧ t.index = s.index ∧ SameMem s t ∧ SamePixels s t ∧
    SameStack s t ∧ SameControl s t) ∧
  ∀ (s : State) (x : Reg), s.status = .running → s.pc.toNat ≤ 0xFFE →
    decodeWord (s.byteAt s.pc.toNat ++ s.byteAt (s.pc.toNat + 1)) = .ldSTVx x →
    ∃ t, step s = .next t ∧ t.st.toNat = (s.reg x).toNat - 1

/-- `NOP` (48_null.md): the words of its four lists, and no others, are NOPs; a NOP changes nothing in the execute
phase, and the step around it advances pc by 2 and ticks the timers. That the step uses up its inputs, the
model's own fields, is the model's choice (log entry 2). -/
def Obligations.UnassignedWordsDoNothing : Prop :=
  (∀ w : Word, decodeWord w = .nop w ↔
    (w.extractLsb' 12 4 = 0x0#4 ∧ w.extractLsb' 0 4 ∉ [0x0#4, 0xE#4]) ∨
    (w.extractLsb' 12 4 = 0x8#4 ∧
      w.extractLsb' 0 4 ∈ [0x8#4, 0x9#4, 0xA#4, 0xB#4, 0xC#4, 0xD#4, 0xF#4]) ∨
    (w.extractLsb' 12 4 = 0xE#4 ∧ w.extractLsb' 0 4 ∉ [0x1#4, 0xE#4]) ∨
    (w.extractLsb' 12 4 = 0xF#4 ∧ w.extractLsb' 0 8 ∉
      [0x07#8, 0x0A#8, 0x15#8, 0x18#8, 0x1E#8, 0x29#8, 0x33#8, 0x55#8, 0x65#8])) ∧
  (∀ (w : Word) (s : State), exec (.nop w) s = .next s) ∧
  ∀ (s : State) (w : Word), s.status = .running → s.pc.toNat ≤ 0xFFE →
    decodeWord (s.byteAt s.pc.toNat ++ s.byteAt (s.pc.toNat + 1)) = .nop w →
    ∃ t, step s = .next t ∧
      t = { s with pc := s.pc + 2, dt := t.dt, st := t.st, pending := s.pending.tail,
                   stepNo := s.stepNo + 1 } ∧
      t.dt.toNat = s.dt.toNat - 1 ∧ t.st.toNat = s.st.toNat - 1

/-! ## Encoding -/

/-- Words written out from 30_encoding.md, at least one of each family (leading nibble) and one of each timer
instruction, decode to the instruction they stand for: the don't-care bits of R71 included. -/
def Obligations.SampleWordsDecodeAsTheTableSays : Prop :=
  decodeWord 0x00E0 = .cls 0x0E ∧ decodeWord 0x0000 = .cls 0x00 ∧ decodeWord 0x0FFE = .ret 0xFF ∧
  decodeWord 0x1ABC = .jp 0xABC ∧ decodeWord 0x2300 = .call 0x300 ∧ decodeWord 0x3142 = .seImm 0x1 0x42 ∧
  decodeWord 0x5121 = .seReg 0x1 0x2 0x1 ∧ decodeWord 0x8125 = .sub 0x1 0x2 ∧
  decodeWord 0x8126 = .shr 0x1 0x2 ∧ decodeWord 0x8128 = .nop 0x8128 ∧ decodeWord 0xB500 = .jpV0 0x500 ∧
  decodeWord 0xD015 = .drw 0x0 0x1 0x5 ∧ decodeWord 0xE19E = .skp 0x1 0x9 ∧
  decodeWord 0xE1A1 = .sknp 0x1 0xA ∧ decodeWord 0xF355 = .storeRegs 0x3 ∧
  decodeWord 0xF365 = .loadRegs 0x3 ∧ decodeWord 0xF130 = .nop 0xF130 ∧
  decodeWord 0x4143 = .sneImm 0x1 0x43 ∧ decodeWord 0x6AFF = .ldImm 0xA 0xFF ∧
  decodeWord 0x7A01 = .addImm 0xA 0x01 ∧ decodeWord 0x912F = .sneReg 0x1 0x2 0xF ∧
  decodeWord 0xA123 = .ldI 0x123 ∧ decodeWord 0xC10F = .rnd 0x1 0x0F ∧ decodeWord 0xF107 = .ldVxDT 0x1 ∧
  decodeWord 0xF115 = .ldDTVx 0x1 ∧ decodeWord 0xF118 = .ldSTVx 0x1

/-- Decoding the word, or the bytes, of any well-formed instruction gives it back, every operand at every value
(30_encoding.md R60 to R73). That don't-care bits are operands is the model's choice (log entry 7). -/
def Obligations.DecodeInvertsEncode : Prop :=
  ∀ (i : Instr), i.WellFormed → decodeWord (encode i) = i ∧
    ∀ rest : List Byte, decode (encodeBytes i ++ rest) = .ok (i, rest)

/-- Every word decodes to a well-formed instruction whose word it is. That the decoder is total is the spec's
(30_encoding.md R64); that the word comes back with its don't-care bits is the model's choice to keep them in the
instruction (log entry 7). -/
def Obligations.EncodeInvertsDecode : Prop :=
  ∀ w : Word, (decodeWord w).WellFormed ∧ encode (decodeWord w) = w

/-- A word is a NOP exactly where no row of the opcode map matches it, and no two rows match one word
(30_encoding.md R73). -/
def Obligations.NopIsExactlyTheUnmatchedWords : Prop :=
  (∀ w : Word, decodeWord w = .nop w ↔ ∀ r ∈ opcodeRows, w &&& r.1 ≠ r.2) ∧
  opcodeRows.Pairwise fun r q => ∀ w : Word, ¬(w &&& r.1 = r.2 ∧ w &&& q.1 = q.2)

/-! ## The step -/

/-- A running machine whose bytes at pc decode to `i` executes `i` with pc advanced by 2 and then, unless it
faulted, ticks both timers and uses up the step's inputs (40_cycle.md R83 to R91). The byte order of the fetch
is the spec's decision D1, and the input fields are the model's own (log entry 2). -/
def Obligations.StepExecutesTheDecodedInstruction : Prop :=
  ∀ (s : State) (i : Instr) (rest : List Byte), s.status = .running → s.pc.toNat ≤ 0xFFE →
    decode [s.byteAt s.pc.toNat, s.byteAt (s.pc.toNat + 1)] = .ok (i, rest) →
    (∀ t, exec i { s with pc := s.pc + 2 } = .next t →
      step s = .next (if t.status = .running then
        { t with dt := if t.dt = 0 then 0 else t.dt - 1, st := if t.st = 0 then 0 else t.st - 1,
                 pending := t.pending.tail, stepNo := t.stepNo + 1 } else t)) ∧
    (∀ r, exec i { s with pc := s.pc + 2 } = .fault r → step s = .fault r) ∧
    (∀ r, exec i { s with pc := s.pc + 2 } = .refused r → step s = .refused r)

/-- 40_cycle.md R91: in a step that does not fault, each timer ends one lower than the handler left it, and 0
stays 0, whatever instruction was executed. -/
def Obligations.StepTicksEachTimerOnce : Prop :=
  ∀ (s t t' : State), s.status = .running → s.pc.toNat ≤ 0xFFE →
    exec (decodeWord (s.byteAt s.pc.toNat ++ s.byteAt (s.pc.toNat + 1))) { s with pc := s.pc + 2 } = .next t →
    step s = .next t' → t'.status = .running →
    t'.dt.toNat = t.dt.toNat - 1 ∧ t'.st.toNat = t.st.toNat - 1

/-- A fetch at pc above 0xFFE faults, records pc and no opcode, and changes nothing else (20_memory.md,
40_cycle.md, the spec's decisions D3 and D8, log entry 6). -/
def Obligations.FetchPastMemoryFaults : Prop :=
  ∀ s : State, s.status = .running → 0xFFF ≤ s.pc.toNat →
    step s = .next { s with status := .faulted (.fetchBounds s.pc) s.pc none }

/-- A faulted state has no step (40_cycle.md, the spec's decision D8; log entry 1). -/
def Obligations.FaultedStateHasNoStep : Prop :=
  ∀ (s : State) (k : FaultKind) (p : Word) (o : Option Word), s.status = .faulted k p o →
    step s = .fault (.noStep k p o)

/-- No instruction refuses or blocks: execute answers a state for every instruction in every state, and so does
a step of every running machine (40_cycle.md, the spec's decision D8; that a core fault is a next state is log
entry 1). -/
def Obligations.NoInstructionRefusesOrBlocks : Prop :=
  (∀ (i : Instr) (s : State), ∃ t, exec i s = .next t) ∧
  ∀ s : State, s.status = .running → ∃ t, step s = .next t

/-- Faults are precise (40_cycle.md, 60_exceptions.md, the spec's decision D8; log entry 1): a step that ends
faulted changed nothing but the status, which records the pc of the start of the step and the fetched word, or
none for a fetch fault. -/
def Obligations.FaultingStepChangesOnlyTheStatus : Prop :=
  ∀ s t : State, step s = .next t → t.status ≠ .running →
    t = { s with status := t.status } ∧
    ∃ k, t.status = .faulted k s.pc
      (if s.pc.toNat ≤ 0xFFE then some (s.byteAt s.pc.toNat ++ s.byteAt (s.pc.toNat + 1)) else none)

/-- Every step keeps memory in its canonical form (the model's representation of 10_state.md's memory). -/
def Obligations.MemoryStaysCanonical : Prop :=
  ∀ s t : State, s.MemOk → step s = .next t → t.MemOk

/-- Every step keeps pc at most 0x10FE and every occupied slot at most 0x1000 (10_state.md, the spec's
inference of R24), so that a 16-bit pc never wraps. -/
def Obligations.PcNeverExceedsItsBound : Prop :=
  ∀ s t : State, s.PcOk → step s = .next t → t.PcOk

/-- The invariants hold at reset. -/
def Obligations.ResetMeetsTheInvariants : Prop :=
  State.reset.MemOk ∧ State.reset.PcOk

/-- The reset values of 10_state.md: those of I, the framebuffer and the stack slots are the spec's decision
D17, the font's bytes the default of the parameter FONT, D12 (log entries 4 and 6). -/
def Obligations.ResetLeavesTheStatedValues : Prop :=
  (∀ x : Reg, State.reset.reg x = 0) ∧ State.reset.index = 0 ∧ State.reset.pc = 0x200 ∧
  State.reset.sp.val = 0 ∧ (∀ j, j < 16 → State.reset.slot j = 0) ∧ State.reset.dt = 0 ∧
  State.reset.st = 0 ∧ (∀ c r, State.reset.pixel c r = false) ∧ State.reset.status = .running ∧
  (∀ a, a < 0x050 ∨ 0x0A0 ≤ a → State.reset.byteAt a = 0) ∧
  (List.range 80).map (fun k => State.reset.byteAt (0x050 + k)) =
    [0xF0, 0x90, 0x90, 0x90, 0xF0] ++ [0x20, 0x60, 0x20, 0x20, 0x70] ++ [0xF0, 0x10, 0xF0, 0x80, 0xF0] ++
    [0xF0, 0x10, 0xF0, 0x10, 0xF0] ++ [0x90, 0x90, 0xF0, 0x10, 0x10] ++ [0xF0, 0x80, 0xF0, 0x10, 0xF0] ++
    [0xF0, 0x80, 0xF0, 0x90, 0xF0] ++ [0xF0, 0x10, 0x20, 0x40, 0x40] ++ [0xF0, 0x90, 0xF0, 0x90, 0xF0] ++
    [0xF0, 0x90, 0xF0, 0x10, 0xF0] ++ [0xF0, 0x90, 0xF0, 0x90, 0x90] ++ [0xE0, 0x90, 0xE0, 0x90, 0xE0] ++
    [0xF0, 0x80, 0x80, 0x80, 0xF0] ++ [0xE0, 0x90, 0x90, 0x90, 0xE0] ++ [0xF0, 0x80, 0xF0, 0x80, 0xF0] ++
    [0xF0, 0x80, 0xF0, 0x80, 0x80]

/-- A launch copies the ROM verbatim to 0x200 and leaves all else at its reset value; a ROM longer than 3584
bytes has no launch (70_reset_and_hazards.md, the spec's decision D20, log entry 8). -/
def Obligations.LaunchPlacesTheRom : Prop :=
  ∀ rom : List Byte,
    (rom.length ≤ 3584 → ∃ s, State.launch rom = some s ∧
      (∀ k (h : k < rom.length), s.byteAt (0x200 + k) = rom[k]) ∧
      SameMemOutside 0x200 rom.length State.reset s ∧ s.MemOk ∧
      s = { State.reset with mem := s.mem }) ∧
    (3584 < rom.length → State.launch rom = none)

/-! ## Whole-machine rules -/

/-- 10_state.md R36: only `CLS` and `DRW` write the framebuffer; `CLS` zeroes every pixel, and `DRW` changes
pixels only by XOR with sprite bits. The framebuffer is read by `DRW`'s collision test alone: with another
framebuffer every instruction does the same to all else, but for VF under `DRW`. -/
def Obligations.OnlyClearAndDrawWriteTheScreen : Prop :=
  ∀ (i : Instr) (s t : State), exec i s = .next t →
    ((∀ d, i ≠ .cls d) → (∀ x y n, i ≠ .drw x y n) → SamePixels s t) ∧
    ((∃ d, i = .cls d) → ∀ c r, t.pixel c r = false) ∧
    (∀ x y n, i = .drw x y n → ∀ c r, t.pixel c r ≠ s.pixel c r → SpriteCovers s x y n c r) ∧
    ∀ fb : Screen, ∃ u, exec i { s with fb := fb } = .next u ∧ u = { t with v := u.v, fb := u.fb } ∧
      ((∃ x y n, i = .drw x y n) → SameRegsBut [0xF#4] t u) ∧
      ((∀ x y n, i ≠ .drw x y n) → SameRegsBut [] t u)

/-- Only the registers of 10_state.md R19 (the spec's inference from the instruction rules) are written. -/
def Obligations.OnlyListedRegistersAreWritten : Prop :=
  ∀ (i : Instr) (s t : State), exec i s = .next t → SameRegsBut (regsWritten i) s t

/-- Only `LD I, nnn`, `ADD I, Vx` and `LD F, Vx` write I (44_memory_index.md, the spec's inference of R127). -/
def Obligations.OnlyIndexInstructionsWriteIndex : Prop :=
  ∀ (i : Instr) (s t : State), exec i s = .next t → (∀ nnn, i ≠ .ldI nnn) → (∀ x, i ≠ .addI x) →
    (∀ x, i ≠ .ldF x) → t.index = s.index

/-- Only `CALL` and `RET` touch the stack (10_state.md, with the spec's decisions D5 and D24), only the timer
loads write a timer in the execute phase (40_cycle.md, the spec's inference of R95), and only `LD B, Vx` and
`LD [I], Vx` write memory (20_memory.md, the spec's inference of R42). -/
def Obligations.StackTimersAndMemoryHaveTheirOwnWriters : Prop :=
  ∀ (i : Instr) (s t : State), exec i s = .next t →
    ((∀ nnn, i ≠ .call nnn) → (∀ d, i ≠ .ret d) → SameStack s t) ∧
    ((∀ x, i ≠ .ldDTVx x) → t.dt = s.dt) ∧ ((∀ x, i ≠ .ldSTVx x) → t.st = s.st) ∧
    ((∀ x, i ≠ .ldB x) → (∀ x, i ≠ .storeRegs x) → SameMem s t)

/-- 40_cycle.md R96: `LD Vx, DT` alone reads DT and no instruction reads ST, whatever their values, 0 included:
with other timers every instruction does the same to all else. -/
def Obligations.TimersAreReadByOneInstruction : Prop :=
  ∀ (i : Instr) (s t : State) (dt st : Byte), exec i s = .next t →
    ((∀ x, i ≠ .ldVxDT x) →
      ∃ u, exec i { s with dt := dt, st := st } = .next u ∧ u = { t with dt := u.dt, st := u.st }) ∧
    ∃ u, exec i { s with st := st } = .next u ∧ u = { t with st := u.st }

/-- Stack slots that are not occupied are never read (10_state.md, the spec's inference of R34): states that
differ only there step alike. -/
def Obligations.FreeStackSlotsAreUnobservable : Prop :=
  ∀ s t s' : State, SameButFreeSlots s t → step s = .next s' →
    ∃ t', step t = .next t' ∧ SameButFreeSlots s' t'

/-- A step is a function of the state, the keypad snapshot and, for `RND` only, the draw (40_cycle.md and
70_reset_and_hazards.md, the spec's inferences of R98 and R180; log entry 2): what else the host has named for
coming steps does not matter to it. -/
def Obligations.StepDependsOnTheHostThroughItsInputsOnly : Prop :=
  ∀ s t s' : State, SameButInputs s t → t.input.keys = s.input.keys →
    (t.input.draw = s.input.draw ∨
      ∀ x kk, decodeWord (s.byteAt s.pc.toNat ++ s.byteAt (s.pc.toNat + 1)) ≠ .rnd x kk) →
    step s = .next s' → ∃ t', step t = .next t' ∧ SameButInputs s' t'
end

