-- ==== Sys2Proof/Laws/Fields.lean ====
section
/-! SUPPORT. The fields of a word put together from parts, a word as the parts it is made of, and what a mask
of the opcode table (30_encoding.md R73) tests. -/

namespace Sys2Proof

/-- The low part of a concatenation. -/
theorem extract_low {m n : Nat} (p : BitVec m) (d : BitVec n) : (p ++ d).extractLsb' 0 n = d := by
  apply BitVec.eq_of_getLsbD_eq
  intro i hi
  simp [BitVec.getLsbD_append, hi]

/-- Bits above the low part of a concatenation are bits of the high part. -/
theorem extract_high {m n : Nat} (p : BitVec m) (d : BitVec n) (k j : Nat) :
    (p ++ d).extractLsb' (n + k) j = p.extractLsb' k j := by
  apply BitVec.eq_of_getLsbD_eq
  intro i hi
  have h1 : ¬n + k + i < n := by omega
  have h2 : n + k + i - n = k + i := by omega
  simp [BitVec.getLsbD_append, hi, h1, h2]

/-- The whole high part of a concatenation. -/
theorem extract_all_high {m n : Nat} (p : BitVec m) (d : BitVec n) : (p ++ d).extractLsb' n m = p := by
  have := extract_high p d 0 m
  rw [Nat.add_zero] at this
  rw [this]
  apply BitVec.eq_of_getLsbD_eq
  intro i hi
  simp [hi]

/-! Words of a nibble and 12 bits -/

@[simp] theorem fieldLead_two (a : BitVec 4) (b : BitVec 12) : fieldLead (a ++ b) = a :=
  extract_all_high a b

@[simp] theorem fieldNNN_two (a : BitVec 4) (b : BitVec 12) : fieldNNN (a ++ b) = b :=
  extract_low a b

/-! Words of two nibbles and a byte -/

@[simp] theorem fieldLead_xkk (a x : BitVec 4) (k : BitVec 8) : fieldLead (a ++ x ++ k) = a :=
  (extract_high (a ++ x) k 4 4).trans (extract_all_high a x)

@[simp] theorem fieldX_xkk (a x : BitVec 4) (k : BitVec 8) : fieldX (a ++ x ++ k) = x :=
  (extract_high (a ++ x) k 0 4).trans (extract_low a x)

@[simp] theorem fieldKK_xkk (a x : BitVec 4) (k : BitVec 8) : fieldKK (a ++ x ++ k) = k :=
  extract_low (a ++ x) k

/-! Words of four nibbles -/

@[simp] theorem fieldLead_xyn (a x y n : BitVec 4) : fieldLead (a ++ x ++ y ++ n) = a :=
  (extract_high (a ++ x ++ y) n 8 4).trans ((extract_high (a ++ x) y 4 4).trans (extract_all_high a x))

@[simp] theorem fieldX_xyn (a x y n : BitVec 4) : fieldX (a ++ x ++ y ++ n) = x :=
  (extract_high (a ++ x ++ y) n 4 4).trans ((extract_high (a ++ x) y 0 4).trans (extract_low a x))

@[simp] theorem fieldY_xyn (a x y n : BitVec 4) : fieldY (a ++ x ++ y ++ n) = y :=
  (extract_high (a ++ x ++ y) n 0 4).trans (extract_low (a ++ x) y)

@[simp] theorem fieldN_xyn (a x y n : BitVec 4) : fieldN (a ++ x ++ y ++ n) = n :=
  extract_low (a ++ x ++ y) n

/-! Words of a nibble, a byte and a nibble -/

@[simp] theorem fieldLead_dn (a : BitVec 4) (d : BitVec 8) (n : BitVec 4) : fieldLead (a ++ d ++ n) = a :=
  (extract_high (a ++ d) n 8 4).trans (extract_all_high a d)

@[simp] theorem fieldXY_dn (a : BitVec 4) (d : BitVec 8) (n : BitVec 4) : fieldXY (a ++ d ++ n) = d :=
  (extract_high (a ++ d) n 0 8).trans (extract_low a d)

@[simp] theorem fieldN_dn (a : BitVec 4) (d : BitVec 8) (n : BitVec 4) : fieldN (a ++ d ++ n) = n :=
  extract_low (a ++ d) n

/-! The bytes of a word -/

@[simp] theorem firstByte_joinBytes (a b : Byte) : firstByte (joinBytes a b) = a :=
  extract_all_high a b

@[simp] theorem secondByte_joinBytes (a b : Byte) : secondByte (joinBytes a b) = b :=
  extract_low a b

/-- Cutting a value in two at bit `n` and joining the parts gives it back. -/
theorem join_extract {m n : Nat} (w : BitVec (m + n)) : w.extractLsb' n m ++ w.extractLsb' 0 n = w := by
  apply BitVec.eq_of_getLsbD_eq
  intro i hi
  simp

@[simp] theorem joinBytes_bytes (w : Word) : joinBytes (firstByte w) (secondByte w) = w :=
  join_extract (m := 8) (n := 8) w

/-- A field of a field is a field. -/
theorem extract_extract {w : Nat} (v : BitVec w) (a b c d : Nat) (h : c + d ≤ b) :
    (v.extractLsb' a b).extractLsb' c d = v.extractLsb' (a + c) d := by
  apply BitVec.eq_of_getLsbD_eq
  intro i hi
  have h1 : c + i < b := by omega
  simp [hi, h1, Nat.add_assoc]

theorem word_two (w : Word) : (fieldLead w ++ fieldNNN w : BitVec (4 + 12)) = w :=
  join_extract (m := 4) (n := 12) w

theorem word_xkk (w : Word) : (fieldLead w ++ fieldX w ++ fieldKK w : BitVec (4 + 4 + 8)) = w := by
  have h1 : (fieldLead w ++ fieldX w : BitVec (4 + 4)) = BitVec.extractLsb' 8 8 w := by
    have := join_extract (m := 4) (n := 4) (BitVec.extractLsb' 8 8 w)
    rw [extract_extract _ 8 8 4 4 (by omega), extract_extract _ 8 8 0 4 (by omega)] at this
    exact this
  rw [h1]
  exact join_extract (m := 8) (n := 8) w

theorem word_dn (w : Word) : (fieldLead w ++ fieldXY w ++ fieldN w : BitVec (4 + 8 + 4)) = w := by
  have h1 : (fieldLead w ++ fieldXY w : BitVec (4 + 8)) = BitVec.extractLsb' 4 12 w := by
    have := join_extract (m := 4) (n := 8) (BitVec.extractLsb' 4 12 w)
    rw [extract_extract _ 4 12 8 4 (by omega), extract_extract _ 4 12 0 8 (by omega)] at this
    exact this
  rw [h1]
  exact join_extract (m := 12) (n := 4) w

theorem word_xyn (w : Word) :
    (fieldLead w ++ fieldX w ++ fieldY w ++ fieldN w : BitVec (4 + 4 + 4 + 4)) = w := by
  have h1 : (fieldLead w ++ fieldX w : BitVec (4 + 4)) = BitVec.extractLsb' 8 8 w := by
    have := join_extract (m := 4) (n := 4) (BitVec.extractLsb' 8 8 w)
    rw [extract_extract _ 8 8 4 4 (by omega), extract_extract _ 8 8 0 4 (by omega)] at this
    exact this
  have h2 : (BitVec.extractLsb' 8 8 w ++ fieldY w : BitVec (8 + 4)) = BitVec.extractLsb' 4 12 w := by
    have := join_extract (m := 8) (n := 4) (BitVec.extractLsb' 4 12 w)
    rw [extract_extract _ 4 12 4 8 (by omega), extract_extract _ 4 12 0 4 (by omega)] at this
    exact this
  rw [h1, h2]
  exact join_extract (m := 12) (n := 4) w

/-! What the masks of the opcode table test -/

theorem lead_of_mask_F000 {w m : Word} (h : w &&& 0xF000#16 = m) : fieldLead w = fieldLead m := by
  subst h
  simp [fieldLead, BitVec.extractLsb'_and]
  exact BitVec.and_allOnes.symm

theorem lead_of_mask_F00F {w m : Word} (h : w &&& 0xF00F#16 = m) : fieldLead w = fieldLead m := by
  subst h
  simp [fieldLead, BitVec.extractLsb'_and]
  exact BitVec.and_allOnes.symm

theorem n_of_mask_F00F {w m : Word} (h : w &&& 0xF00F#16 = m) : fieldN w = fieldN m := by
  subst h
  simp [fieldN, BitVec.extractLsb'_and]
  exact BitVec.and_allOnes.symm

theorem lead_of_mask_F0FF {w m : Word} (h : w &&& 0xF0FF#16 = m) : fieldLead w = fieldLead m := by
  subst h
  simp [fieldLead, BitVec.extractLsb'_and]
  exact BitVec.and_allOnes.symm

theorem kk_of_mask_F0FF {w m : Word} (h : w &&& 0xF0FF#16 = m) : fieldKK w = fieldKK m := by
  subst h
  simp [fieldKK, BitVec.extractLsb'_and]
  exact BitVec.and_allOnes.symm

end Sys2Proof
end

