-- ==== Sys2Proof/Laws/Decode.lean ====
section
/-! SUPPORT. Where each row of the opcode table (30_encoding.md R73) routes to. -/

namespace Sys2Proof

theorem decodeWord_cls {w : Word} (h : w &&& 0xF00F#16 = 0x0000#16) :
    decodeWord w = .cls (fieldXY w) := by
  have hl : fieldLead w = 0x0#4 := lead_of_mask_F00F h
  have hn : fieldN w = 0x0#4 := n_of_mask_F00F h
  simp [decodeWord, hl, decodeFamily0, hn]

theorem decodeWord_ret {w : Word} (h : w &&& 0xF00F#16 = 0x000E#16) :
    decodeWord w = .ret (fieldXY w) := by
  have hl : fieldLead w = 0x0#4 := lead_of_mask_F00F h
  have hn : fieldN w = 0xE#4 := n_of_mask_F00F h
  simp [decodeWord, hl, decodeFamily0, hn]

theorem decodeWord_jp {w : Word} (h : w &&& 0xF000#16 = 0x1000#16) :
    decodeWord w = .jp (fieldNNN w) := by
  have hl : fieldLead w = 0x1#4 := lead_of_mask_F000 h
  simp [decodeWord, hl]

theorem decodeWord_call {w : Word} (h : w &&& 0xF000#16 = 0x2000#16) :
    decodeWord w = .call (fieldNNN w) := by
  have hl : fieldLead w = 0x2#4 := lead_of_mask_F000 h
  simp [decodeWord, hl]

theorem decodeWord_seImm {w : Word} (h : w &&& 0xF000#16 = 0x3000#16) :
    decodeWord w = .seImm (fieldX w) (fieldKK w) := by
  have hl : fieldLead w = 0x3#4 := lead_of_mask_F000 h
  simp [decodeWord, hl]

theorem decodeWord_sneImm {w : Word} (h : w &&& 0xF000#16 = 0x4000#16) :
    decodeWord w = .sneImm (fieldX w) (fieldKK w) := by
  have hl : fieldLead w = 0x4#4 := lead_of_mask_F000 h
  simp [decodeWord, hl]

theorem decodeWord_seReg {w : Word} (h : w &&& 0xF000#16 = 0x5000#16) :
    decodeWord w = .seReg (fieldX w) (fieldY w) (fieldN w) := by
  have hl : fieldLead w = 0x5#4 := lead_of_mask_F000 h
  simp [decodeWord, hl]

theorem decodeWord_ldImm {w : Word} (h : w &&& 0xF000#16 = 0x6000#16) :
    decodeWord w = .ldImm (fieldX w) (fieldKK w) := by
  have hl : fieldLead w = 0x6#4 := lead_of_mask_F000 h
  simp [decodeWord, hl]

theorem decodeWord_addImm {w : Word} (h : w &&& 0xF000#16 = 0x7000#16) :
    decodeWord w = .addImm (fieldX w) (fieldKK w) := by
  have hl : fieldLead w = 0x7#4 := lead_of_mask_F000 h
  simp [decodeWord, hl]

theorem decodeWord_ldReg {w : Word} (h : w &&& 0xF00F#16 = 0x8000#16) :
    decodeWord w = .ldReg (fieldX w) (fieldY w) := by
  have hl : fieldLead w = 0x8#4 := lead_of_mask_F00F h
  have hn : fieldN w = 0x0#4 := n_of_mask_F00F h
  simp [decodeWord, hl, decodeFamily8, hn]

theorem decodeWord_or {w : Word} (h : w &&& 0xF00F#16 = 0x8001#16) :
    decodeWord w = .or (fieldX w) (fieldY w) := by
  have hl : fieldLead w = 0x8#4 := lead_of_mask_F00F h
  have hn : fieldN w = 0x1#4 := n_of_mask_F00F h
  simp [decodeWord, hl, decodeFamily8, hn]

theorem decodeWord_and {w : Word} (h : w &&& 0xF00F#16 = 0x8002#16) :
    decodeWord w = .and (fieldX w) (fieldY w) := by
  have hl : fieldLead w = 0x8#4 := lead_of_mask_F00F h
  have hn : fieldN w = 0x2#4 := n_of_mask_F00F h
  simp [decodeWord, hl, decodeFamily8, hn]

theorem decodeWord_xor {w : Word} (h : w &&& 0xF00F#16 = 0x8003#16) :
    decodeWord w = .xor (fieldX w) (fieldY w) := by
  have hl : fieldLead w = 0x8#4 := lead_of_mask_F00F h
  have hn : fieldN w = 0x3#4 := n_of_mask_F00F h
  simp [decodeWord, hl, decodeFamily8, hn]

theorem decodeWord_addReg {w : Word} (h : w &&& 0xF00F#16 = 0x8004#16) :
    decodeWord w = .addReg (fieldX w) (fieldY w) := by
  have hl : fieldLead w = 0x8#4 := lead_of_mask_F00F h
  have hn : fieldN w = 0x4#4 := n_of_mask_F00F h
  simp [decodeWord, hl, decodeFamily8, hn]

theorem decodeWord_sub {w : Word} (h : w &&& 0xF00F#16 = 0x8005#16) :
    decodeWord w = .sub (fieldX w) (fieldY w) := by
  have hl : fieldLead w = 0x8#4 := lead_of_mask_F00F h
  have hn : fieldN w = 0x5#4 := n_of_mask_F00F h
  simp [decodeWord, hl, decodeFamily8, hn]

theorem decodeWord_shr {w : Word} (h : w &&& 0xF00F#16 = 0x8006#16) :
    decodeWord w = .shr (fieldX w) (fieldY w) := by
  have hl : fieldLead w = 0x8#4 := lead_of_mask_F00F h
  have hn : fieldN w = 0x6#4 := n_of_mask_F00F h
  simp [decodeWord, hl, decodeFamily8, hn]

theorem decodeWord_subn {w : Word} (h : w &&& 0xF00F#16 = 0x8007#16) :
    decodeWord w = .subn (fieldX w) (fieldY w) := by
  have hl : fieldLead w = 0x8#4 := lead_of_mask_F00F h
  have hn : fieldN w = 0x7#4 := n_of_mask_F00F h
  simp [decodeWord, hl, decodeFamily8, hn]

theorem decodeWord_shl {w : Word} (h : w &&& 0xF00F#16 = 0x800E#16) :
    decodeWord w = .shl (fieldX w) (fieldY w) := by
  have hl : fieldLead w = 0x8#4 := lead_of_mask_F00F h
  have hn : fieldN w = 0xE#4 := n_of_mask_F00F h
  simp [decodeWord, hl, decodeFamily8, hn]

theorem decodeWord_sneReg {w : Word} (h : w &&& 0xF000#16 = 0x9000#16) :
    decodeWord w = .sneReg (fieldX w) (fieldY w) (fieldN w) := by
  have hl : fieldLead w = 0x9#4 := lead_of_mask_F000 h
  simp [decodeWord, hl]

theorem decodeWord_ldI {w : Word} (h : w &&& 0xF000#16 = 0xA000#16) :
    decodeWord w = .ldI (fieldNNN w) := by
  have hl : fieldLead w = 0xA#4 := lead_of_mask_F000 h
  simp [decodeWord, hl]

theorem decodeWord_jpV0 {w : Word} (h : w &&& 0xF000#16 = 0xB000#16) :
    decodeWord w = .jpV0 (fieldNNN w) := by
  have hl : fieldLead w = 0xB#4 := lead_of_mask_F000 h
  simp [decodeWord, hl]

theorem decodeWord_rnd {w : Word} (h : w &&& 0xF000#16 = 0xC000#16) :
    decodeWord w = .rnd (fieldX w) (fieldKK w) := by
  have hl : fieldLead w = 0xC#4 := lead_of_mask_F000 h
  simp [decodeWord, hl]

theorem decodeWord_drw {w : Word} (h : w &&& 0xF000#16 = 0xD000#16) :
    decodeWord w = .drw (fieldX w) (fieldY w) (fieldN w) := by
  have hl : fieldLead w = 0xD#4 := lead_of_mask_F000 h
  simp [decodeWord, hl]

theorem decodeWord_skp {w : Word} (h : w &&& 0xF00F#16 = 0xE00E#16) :
    decodeWord w = .skp (fieldX w) (fieldY w) := by
  have hl : fieldLead w = 0xE#4 := lead_of_mask_F00F h
  have hn : fieldN w = 0xE#4 := n_of_mask_F00F h
  simp [decodeWord, hl, decodeFamilyE, hn]

theorem decodeWord_sknp {w : Word} (h : w &&& 0xF00F#16 = 0xE001#16) :
    decodeWord w = .sknp (fieldX w) (fieldY w) := by
  have hl : fieldLead w = 0xE#4 := lead_of_mask_F00F h
  have hn : fieldN w = 0x1#4 := n_of_mask_F00F h
  simp [decodeWord, hl, decodeFamilyE, hn]

theorem decodeWord_ldVxDT {w : Word} (h : w &&& 0xF0FF#16 = 0xF007#16) :
    decodeWord w = .ldVxDT (fieldX w) := by
  have hl : fieldLead w = 0xF#4 := lead_of_mask_F0FF h
  have hk : fieldKK w = 0x07#8 := kk_of_mask_F0FF h
  simp [decodeWord, hl, decodeFamilyF, hk]

theorem decodeWord_ldVxK {w : Word} (h : w &&& 0xF0FF#16 = 0xF00A#16) :
    decodeWord w = .ldVxK (fieldX w) := by
  have hl : fieldLead w = 0xF#4 := lead_of_mask_F0FF h
  have hk : fieldKK w = 0x0A#8 := kk_of_mask_F0FF h
  simp [decodeWord, hl, decodeFamilyF, hk]

theorem decodeWord_ldDTVx {w : Word} (h : w &&& 0xF0FF#16 = 0xF015#16) :
    decodeWord w = .ldDTVx (fieldX w) := by
  have hl : fieldLead w = 0xF#4 := lead_of_mask_F0FF h
  have hk : fieldKK w = 0x15#8 := kk_of_mask_F0FF h
  simp [decodeWord, hl, decodeFamilyF, hk]

theorem decodeWord_ldSTVx {w : Word} (h : w &&& 0xF0FF#16 = 0xF018#16) :
    decodeWord w = .ldSTVx (fieldX w) := by
  have hl : fieldLead w = 0xF#4 := lead_of_mask_F0FF h
  have hk : fieldKK w = 0x18#8 := kk_of_mask_F0FF h
  simp [decodeWord, hl, decodeFamilyF, hk]

theorem decodeWord_addI {w : Word} (h : w &&& 0xF0FF#16 = 0xF01E#16) :
    decodeWord w = .addI (fieldX w) := by
  have hl : fieldLead w = 0xF#4 := lead_of_mask_F0FF h
  have hk : fieldKK w = 0x1E#8 := kk_of_mask_F0FF h
  simp [decodeWord, hl, decodeFamilyF, hk]

theorem decodeWord_ldF {w : Word} (h : w &&& 0xF0FF#16 = 0xF029#16) :
    decodeWord w = .ldF (fieldX w) := by
  have hl : fieldLead w = 0xF#4 := lead_of_mask_F0FF h
  have hk : fieldKK w = 0x29#8 := kk_of_mask_F0FF h
  simp [decodeWord, hl, decodeFamilyF, hk]

theorem decodeWord_ldB {w : Word} (h : w &&& 0xF0FF#16 = 0xF033#16) :
    decodeWord w = .ldB (fieldX w) := by
  have hl : fieldLead w = 0xF#4 := lead_of_mask_F0FF h
  have hk : fieldKK w = 0x33#8 := kk_of_mask_F0FF h
  simp [decodeWord, hl, decodeFamilyF, hk]

theorem decodeWord_storeRegs {w : Word} (h : w &&& 0xF0FF#16 = 0xF055#16) :
    decodeWord w = .storeRegs (fieldX w) := by
  have hl : fieldLead w = 0xF#4 := lead_of_mask_F0FF h
  have hk : fieldKK w = 0x55#8 := kk_of_mask_F0FF h
  simp [decodeWord, hl, decodeFamilyF, hk]

theorem decodeWord_loadRegs {w : Word} (h : w &&& 0xF0FF#16 = 0xF065#16) :
    decodeWord w = .loadRegs (fieldX w) := by
  have hl : fieldLead w = 0xF#4 := lead_of_mask_F0FF h
  have hk : fieldKK w = 0x65#8 := kk_of_mask_F0FF h
  simp [decodeWord, hl, decodeFamilyF, hk]

end Sys2Proof
end

