-- ==== Sys2Proof/Laws/Memory.lean ====
section
/-! SUPPORT. Memory: a read after a write, the canonical form kept by every operation, equal reads are equal
memories, and what the bounds check answers. -/

namespace Sys2Proof.Machine

theorem Memory.byteAt_entry (a b : Nat) (u : Byte) (rest : Memory) :
    (Memory.entry a u ++ rest).byteAt b =
      if b = a ∧ u ≠ resetByte a then u else rest.byteAt b := by
  unfold Memory.entry
  by_cases h : u = resetByte a
  · simp [h]
  · by_cases e : b = a <;> simp [h, e, Memory.byteAt]

/-- A cell below the first listed one is not listed. -/
theorem Memory.byteAt_of_lt {m : Memory} {low a : Nat} (h : m.wfFrom low = true) (ha : a < low) :
    m.byteAt a = resetByte a := by
  induction m generalizing low with
  | nil => rfl
  | cons c rest ih =>
    obtain ⟨b, u⟩ := c
    simp only [Memory.wfFrom, Bool.and_eq_true, decide_eq_true_eq] at h
    have : a ≠ b := by omega
    simp only [Memory.byteAt, this, if_false]
    exact ih h.2 (by omega)

/-- A read after a write: the byte written at its address, every other byte as before. -/
theorem Memory.byteAt_store {m : Memory} {low : Nat} (h : m.wfFrom low = true) (a b : Nat) (u : Byte) :
    (m.store a u).byteAt b = if b = a then u else m.byteAt b := by
  induction m generalizing low with
  | nil =>
    have := Memory.byteAt_entry a b u []
    simp only [List.append_nil] at this
    simp only [Memory.store, this]
    by_cases e : b = a
    · subst e; by_cases q : u = resetByte b <;> simp [q, Memory.byteAt]
    · simp [e]
  | cons c rest ih =>
    obtain ⟨k, w⟩ := c
    simp only [Memory.wfFrom, Bool.and_eq_true, decide_eq_true_eq] at h
    unfold Memory.store
    by_cases h1 : a < k
    · rw [if_pos h1, Memory.byteAt_entry]
      by_cases e : b = a
      · subst e
        have hb : Memory.byteAt ((k, w) :: rest) b = resetByte b :=
          Memory.byteAt_of_lt (low := b + 1) (by simp [Memory.wfFrom, h]; omega) (by omega)
        by_cases q : u = resetByte b <;> simp [q, hb]
      · simp [e]
    · rw [if_neg h1]
      by_cases h2 : a = k
      · subst h2
        rw [if_pos rfl, Memory.byteAt_entry]
        by_cases e : b = a
        · subst e
          have hb : Memory.byteAt rest b = resetByte b := Memory.byteAt_of_lt h.2 (by omega)
          by_cases q : u = resetByte b <;> simp [q, hb]
        · simp [e, Memory.byteAt]
      · rw [if_neg h2]
        by_cases e : b = k
        · subst e
          have : ¬b = a := fun q => h2 q.symm
          simp [Memory.byteAt, this]
        · simp only [Memory.byteAt, e, if_false]
          exact ih h.2

theorem Memory.wfFrom_weaken {m : Memory} {low low' : Nat} (h : m.wfFrom low = true) (hl : low' ≤ low) :
    m.wfFrom low' = true := by
  cases m with
  | nil => rfl
  | cons c rest =>
    simp only [Memory.wfFrom, Bool.and_eq_true, decide_eq_true_eq] at h ⊢
    exact ⟨⟨⟨by omega, h.1.1.2⟩, h.1.2⟩, h.2⟩

theorem Memory.wfFrom_entry {rest : Memory} {low a : Nat} (u : Byte) (hlow : low ≤ a)
    (ha : a < Config.memSize) (h : rest.wfFrom (a + 1) = true) :
    (Memory.entry a u ++ rest).wfFrom low = true := by
  unfold Memory.entry
  by_cases q : u = resetByte a
  · simpa [q] using Memory.wfFrom_weaken h (by omega)
  · simp [Memory.wfFrom, q, h, hlow, ha]

theorem Memory.wfFrom_store {m : Memory} {low a : Nat} (u : Byte) (h : m.wfFrom low = true)
    (hlow : low ≤ a) (ha : a < Config.memSize) : (m.store a u).wfFrom low = true := by
  induction m generalizing low with
  | nil =>
    have := Memory.wfFrom_entry (rest := []) u hlow ha rfl
    simpa [Memory.store] using this
  | cons c rest ih =>
    obtain ⟨k, w⟩ := c
    have hc := h
    simp only [Memory.wfFrom, Bool.and_eq_true, decide_eq_true_eq] at h
    unfold Memory.store
    by_cases h1 : a < k
    · rw [if_pos h1]
      apply Memory.wfFrom_entry u hlow ha
      simp only [Memory.wfFrom, Bool.and_eq_true, decide_eq_true_eq]
      exact ⟨⟨⟨by omega, h.1.1.2⟩, h.1.2⟩, h.2⟩
    · rw [if_neg h1]
      by_cases h2 : a = k
      · subst h2
        rw [if_pos rfl]
        exact Memory.wfFrom_entry u hlow ha h.2
      · rw [if_neg h2]
        simp only [Memory.wfFrom, Bool.and_eq_true, decide_eq_true_eq]
        exact ⟨h.1, ih h.2 (by omega)⟩

/-- Writing an existing cell keeps the canonical form. -/
theorem Memory.wf_store {m : Memory} (a : Nat) (u : Byte) (h : m.wf = true) (ha : a < Config.memSize) :
    (m.store a u).wf = true :=
  Memory.wfFrom_store u h (Nat.zero_le a) ha

/-- Writing a block of existing cells keeps the canonical form. -/
theorem Memory.wf_storeBytes {m : Memory} (a : Nat) (bytes : List Byte) (h : m.wf = true)
    (ha : a + bytes.length ≤ Config.memSize) : (m.storeBytes a bytes).wf = true := by
  induction bytes generalizing m a with
  | nil => exact h
  | cons u rest ih =>
    simp only [List.length_cons] at ha
    exact ih (a + 1) (Memory.wf_store a u h (by omega)) (by omega)

/-- A read after a block write: the block's bytes at its addresses, every other byte as before. -/
theorem Memory.byteAt_storeBytes {m : Memory} (a : Nat) (bytes : List Byte) (h : m.wf = true)
    (ha : a + bytes.length ≤ Config.memSize) (b : Nat) :
    (m.storeBytes a bytes).byteAt b =
      if a ≤ b ∧ b < a + bytes.length then bytes.getD (b - a) 0 else m.byteAt b := by
  induction bytes generalizing m a with
  | nil =>
    have : ¬(a ≤ b ∧ b < a + [].length (α := Byte)) := by simp
    rw [if_neg this]; rfl
  | cons u rest ih =>
    simp only [List.length_cons] at ha
    have hs := Memory.byteAt_store h a b u
    rw [Memory.storeBytes, ih (a + 1) (Memory.wf_store a u h (by omega)) (by omega), hs]
    by_cases e : b = a
    · subst e
      have h1 : ¬(b + 1 ≤ b ∧ b < b + 1 + rest.length) := by omega
      have h2 : b ≤ b ∧ b < b + (u :: rest).length := by simp
      simp [List.getD]
    · by_cases hin : a + 1 ≤ b ∧ b < a + 1 + rest.length
      · have h2 : a ≤ b ∧ b < a + (u :: rest).length := by simp; omega
        rw [if_pos hin, if_pos h2]
        have : b - a = (b - (a + 1)) + 1 := by omega
        simp [this, List.getD]
      · have h2 : ¬(a ≤ b ∧ b < a + (u :: rest).length) := by simp; omega
        rw [if_neg hin, if_neg h2, if_neg e]

/-- A byte outside the written block. -/
theorem Memory.byteAt_storeBytes_outside {m : Memory} {a : Nat} {bytes : List Byte} (h : m.wf = true)
    (ha : a + bytes.length ≤ Config.memSize) {b : Nat} (hb : b < a ∨ a + bytes.length ≤ b) :
    (m.storeBytes a bytes).byteAt b = m.byteAt b := by
  rw [Memory.byteAt_storeBytes a bytes h ha, if_neg (by omega)]

theorem Memory.eq_of_byteAt_from {m m' : Memory} {low : Nat} (h : m.wfFrom low = true)
    (h' : m'.wfFrom low = true) (e : ∀ a, low ≤ a → m.byteAt a = m'.byteAt a) : m = m' := by
  induction m generalizing m' low with
  | nil =>
    cases m' with
    | nil => rfl
    | cons c rest =>
      obtain ⟨b, u⟩ := c
      simp only [Memory.wfFrom, Bool.and_eq_true, decide_eq_true_eq] at h'
      have := e b (by omega)
      simp [Memory.byteAt] at this
      exact absurd this.symm h'.1.2
  | cons c rest ih =>
    obtain ⟨b, u⟩ := c
    cases m' with
    | nil =>
      simp only [Memory.wfFrom, Bool.and_eq_true, decide_eq_true_eq] at h
      have := e b (by omega)
      simp [Memory.byteAt] at this
      exact absurd this h.1.2
    | cons c' rest' =>
      obtain ⟨b', u'⟩ := c'
      have hm := h
      have hm' := h'
      simp only [Memory.wfFrom, Bool.and_eq_true, decide_eq_true_eq] at h h'
      rcases Nat.lt_trichotomy b b' with hlt | heq | hgt
      · have := e b (by omega)
        rw [Memory.byteAt_of_lt (m := (b', u') :: rest') (low := b') (a := b)
          (by simp [Memory.wfFrom, h']) hlt] at this
        simp [Memory.byteAt] at this
        exact absurd this h.1.2
      · subst heq
        have hu := e b (by omega)
        simp [Memory.byteAt] at hu
        subst hu
        congr 1
        apply ih h.2 h'.2
        intro a ha
        have := e a (by omega)
        have q : a ≠ b := by omega
        simpa [Memory.byteAt, q] using this
      · have := e b' (by omega)
        rw [Memory.byteAt_of_lt (m := (b, u) :: rest) (low := b) (a := b')
          (by simp [Memory.wfFrom, h]) hgt] at this
        simp [Memory.byteAt] at this
        exact absurd this.symm h'.1.2

/-- Two memories in canonical form that read alike are equal data. -/
theorem Memory.eq_of_byteAt {m m' : Memory} (h : m.wf = true) (h' : m'.wf = true)
    (e : ∀ a, m.byteAt a = m'.byteAt a) : m = m' :=
  Memory.eq_of_byteAt_from h h' fun a _ => e a

/-- A listed cell exists. -/
theorem Memory.byteAt_of_ge {m : Memory} {low a : Nat} (h : m.wfFrom low = true)
    (ha : Config.memSize ≤ a) : m.byteAt a = resetByte a := by
  induction m generalizing low with
  | nil => rfl
  | cons c rest ih =>
    obtain ⟨b, u⟩ := c
    simp only [Memory.wfFrom, Bool.and_eq_true, decide_eq_true_eq] at h
    have : a ≠ b := by omega
    simp only [Memory.byteAt, this, if_false]
    exact ih h.2

/-- The bounds check passes exactly where all addresses exist. -/
theorem checkSpan_eq_none {a k : Nat} : checkSpan a k = none ↔ a + k ≤ 0xFFF := by
  unfold checkSpan; split <;> simp_all

theorem checkSpan_of_oob {a k : Nat} (h : 0xFFF < a + k) :
    checkSpan a k = some (.memBounds (max a 0x1000)) := by
  unfold checkSpan; rw [if_neg (by omega)]

end Sys2Proof.Machine
end

