-- ==== Sys2Proof/Laws/Pixels.lean ====
section
/-! SUPPORT. Pixels: the cleared screen, one pixel turned over, a list of distinct pixels drawn. -/

namespace Sys2Proof.Machine

@[simp] theorem Screen.pixel_clear (c r : Nat) : Screen.clear.pixel c r = false := by
  unfold Screen.pixel Screen.clear
  split <;> simp

theorem Screen.pixel_outside (fb : Screen) {c r : Nat} (h : ¬(c < 64 ∧ r < 32)) :
    fb.pixel c r = false := by
  unfold Screen.pixel
  rw [dif_neg h]

/-- Turning a pixel of the grid over changes it and no other. -/
theorem Screen.pixel_toggle (fb : Screen) {a b : Nat} (ha : a < 64) (hb : b < 32) (c r : Nat) :
    (fb.toggle a b).pixel c r = if c = a ∧ r = b then !fb.pixel c r else fb.pixel c r := by
  unfold Screen.toggle
  rw [dif_pos ⟨ha, hb⟩]
  unfold Screen.pixel
  by_cases h : c < Config.screenWidth ∧ r < Config.screenHeight
  · rw [dif_pos h, dif_pos h]
    by_cases e : b = r
    · subst e
      by_cases q : a = c
      · subst q; simp
      · have q' : ¬c = a := fun z => q z.symm
        simp [q, q']
    · have e' : ¬r = b := fun z => e z.symm
      simp [e, e']
  · rw [dif_neg h, dif_neg h]
    have : ¬(c = a ∧ r = b) := by
      rintro ⟨rfl, rfl⟩; exact h ⟨ha, hb⟩
    rw [if_neg this]

/-- Two screens with the same pixels are equal data. -/
theorem Screen.ext {fb fb' : Screen} (h : ∀ c r, fb.pixel c r = fb'.pixel c r) : fb = fb' := by
  apply Vector.ext
  intro r hr
  apply Vector.ext
  intro c hc
  have := h c r
  unfold Screen.pixel at this
  rw [dif_pos ⟨hc, hr⟩, dif_pos ⟨hc, hr⟩] at this
  exact this

/-- All listed coordinates lie on the screen. -/
def OnScreen (ps : List (Nat × Nat)) : Prop := ∀ p ∈ ps, p.1 < 64 ∧ p.2 < 32

theorem foldl_drawPixel (ps : List (Nat × Nat)) (fb : Screen) (hit : Bool) (hn : ps.Nodup)
    (hs : OnScreen ps) :
    (∀ c r, (ps.foldl drawPixel (fb, hit)).1.pixel c r =
        if (c, r) ∈ ps then !fb.pixel c r else fb.pixel c r) ∧
      (ps.foldl drawPixel (fb, hit)).2 = (hit || ps.any fun p => fb.pixel p.1 p.2) := by
  induction ps generalizing fb hit with
  | nil => simp
  | cons p rest ih =>
    obtain ⟨a, b⟩ := p
    have hp := hs (a, b) (by simp)
    rw [List.nodup_cons] at hn
    obtain ⟨h1, h2⟩ := ih (fb.toggle a b) (hit || fb.pixel a b) hn.2
      (fun q hq => hs q (List.mem_cons_of_mem _ hq))
    have tog := fun c r => Screen.pixel_toggle fb hp.1 hp.2 c r
    constructor
    · intro c r
      rw [List.foldl_cons]
      show (rest.foldl drawPixel (fb.toggle a b, hit || fb.pixel a b)).1.pixel c r = _
      rw [h1 c r, tog c r]
      by_cases e : (c, r) = (a, b)
      · cases e
        simp [hn.1]
      · have e' : ¬(c = a ∧ r = b) := fun ⟨q, q'⟩ => e (by rw [q, q'])
        simp [e']
    · rw [List.foldl_cons]
      show (rest.foldl drawPixel (fb.toggle a b, hit || fb.pixel a b)).2 = _
      rw [h2, List.any_cons, Bool.or_assoc]
      congr 2
      apply Bool.eq_iff_iff.mpr
      simp only [List.any_eq_true]
      constructor <;> rintro ⟨q, hq, hv⟩ <;> refine ⟨q, hq, ?_⟩
      · rw [tog, if_neg] at hv
        · exact hv
        · intro z; exact hn.1 (Prod.ext z.1 z.2 ▸ hq)
      · rw [tog, if_neg]
        · exact hv
        · intro z; exact hn.1 (Prod.ext z.1 z.2 ▸ hq)

/-- Drawing distinct pixels of the screen turns over exactly those. -/
theorem pixel_drawPixels (fb : Screen) {ps : List (Nat × Nat)} (hn : ps.Nodup) (hs : OnScreen ps)
    (c r : Nat) :
    (drawPixels fb ps).1.pixel c r = if (c, r) ∈ ps then !fb.pixel c r else fb.pixel c r :=
  (foldl_drawPixel ps fb false hn hs).1 c r

/-- Drawing distinct pixels of the screen collides exactly where one of them was on. -/
theorem collision_drawPixels (fb : Screen) {ps : List (Nat × Nat)} (hn : ps.Nodup) (hs : OnScreen ps) :
    (drawPixels fb ps).2 = ps.any fun p => fb.pixel p.1 p.2 := by
  exact (foldl_drawPixel ps fb false hn hs).2.trans (Bool.false_or _)

end Sys2Proof.Machine
end

