-- ==== Sys2Proof/Laws/State.lean ====
section
/-! SUPPORT. What each named update of the state leaves in each field, and in each accessor over a field, so
that no proof unfolds a record update. -/

namespace Sys2Proof.Machine

variable (s : State)

/-! `setReg` -/

@[simp] theorem State.index_setReg (x : Reg) (u : Byte) : (s.setReg x u).index = s.index := rfl
@[simp] theorem State.pc_setReg (x : Reg) (u : Byte) : (s.setReg x u).pc = s.pc := rfl
@[simp] theorem State.stack_setReg (x : Reg) (u : Byte) : (s.setReg x u).stack = s.stack := rfl
@[simp] theorem State.sp_setReg (x : Reg) (u : Byte) : (s.setReg x u).sp = s.sp := rfl
@[simp] theorem State.dt_setReg (x : Reg) (u : Byte) : (s.setReg x u).dt = s.dt := rfl
@[simp] theorem State.st_setReg (x : Reg) (u : Byte) : (s.setReg x u).st = s.st := rfl
@[simp] theorem State.mem_setReg (x : Reg) (u : Byte) : (s.setReg x u).mem = s.mem := rfl
@[simp] theorem State.fb_setReg (x : Reg) (u : Byte) : (s.setReg x u).fb = s.fb := rfl
@[simp] theorem State.status_setReg (x : Reg) (u : Byte) : (s.setReg x u).status = s.status := rfl
@[simp] theorem State.pending_setReg (x : Reg) (u : Byte) : (s.setReg x u).pending = s.pending := rfl
@[simp] theorem State.stepNo_setReg (x : Reg) (u : Byte) : (s.setReg x u).stepNo = s.stepNo := rfl
@[simp] theorem State.byteAt_setReg (x : Reg) (u : Byte) (a : Nat) : (s.setReg x u).byteAt a = s.byteAt a := rfl
@[simp] theorem State.pixel_setReg (x : Reg) (u : Byte) (c r : Nat) : (s.setReg x u).pixel c r = s.pixel c r := rfl
@[simp] theorem State.slot_setReg (x : Reg) (u : Byte) (j : Nat) : (s.setReg x u).slot j = s.slot j := rfl
@[simp] theorem State.input_setReg (x : Reg) (u : Byte) : (s.setReg x u).input = s.input := rfl

/-! `setRegs` -/

@[simp] theorem State.v_setRegs (v : Vector Byte 16) : (s.setRegs v).v = v := rfl
@[simp] theorem State.index_setRegs (v : Vector Byte 16) : (s.setRegs v).index = s.index := rfl
@[simp] theorem State.pc_setRegs (v : Vector Byte 16) : (s.setRegs v).pc = s.pc := rfl
@[simp] theorem State.stack_setRegs (v : Vector Byte 16) : (s.setRegs v).stack = s.stack := rfl
@[simp] theorem State.sp_setRegs (v : Vector Byte 16) : (s.setRegs v).sp = s.sp := rfl
@[simp] theorem State.dt_setRegs (v : Vector Byte 16) : (s.setRegs v).dt = s.dt := rfl
@[simp] theorem State.st_setRegs (v : Vector Byte 16) : (s.setRegs v).st = s.st := rfl
@[simp] theorem State.mem_setRegs (v : Vector Byte 16) : (s.setRegs v).mem = s.mem := rfl
@[simp] theorem State.fb_setRegs (v : Vector Byte 16) : (s.setRegs v).fb = s.fb := rfl
@[simp] theorem State.status_setRegs (v : Vector Byte 16) : (s.setRegs v).status = s.status := rfl
@[simp] theorem State.pending_setRegs (v : Vector Byte 16) : (s.setRegs v).pending = s.pending := rfl
@[simp] theorem State.stepNo_setRegs (v : Vector Byte 16) : (s.setRegs v).stepNo = s.stepNo := rfl
@[simp] theorem State.byteAt_setRegs (v : Vector Byte 16) (a : Nat) : (s.setRegs v).byteAt a = s.byteAt a := rfl
@[simp] theorem State.pixel_setRegs (v : Vector Byte 16) (c r : Nat) : (s.setRegs v).pixel c r = s.pixel c r := rfl
@[simp] theorem State.slot_setRegs (v : Vector Byte 16) (j : Nat) : (s.setRegs v).slot j = s.slot j := rfl
@[simp] theorem State.input_setRegs (v : Vector Byte 16) : (s.setRegs v).input = s.input := rfl

/-! `setIndex` -/

@[simp] theorem State.v_setIndex (w : Word) : (s.setIndex w).v = s.v := rfl
@[simp] theorem State.index_setIndex (w : Word) : (s.setIndex w).index = w := rfl
@[simp] theorem State.pc_setIndex (w : Word) : (s.setIndex w).pc = s.pc := rfl
@[simp] theorem State.stack_setIndex (w : Word) : (s.setIndex w).stack = s.stack := rfl
@[simp] theorem State.sp_setIndex (w : Word) : (s.setIndex w).sp = s.sp := rfl
@[simp] theorem State.dt_setIndex (w : Word) : (s.setIndex w).dt = s.dt := rfl
@[simp] theorem State.st_setIndex (w : Word) : (s.setIndex w).st = s.st := rfl
@[simp] theorem State.mem_setIndex (w : Word) : (s.setIndex w).mem = s.mem := rfl
@[simp] theorem State.fb_setIndex (w : Word) : (s.setIndex w).fb = s.fb := rfl
@[simp] theorem State.status_setIndex (w : Word) : (s.setIndex w).status = s.status := rfl
@[simp] theorem State.pending_setIndex (w : Word) : (s.setIndex w).pending = s.pending := rfl
@[simp] theorem State.stepNo_setIndex (w : Word) : (s.setIndex w).stepNo = s.stepNo := rfl
@[simp] theorem State.reg_setIndex (w : Word) (x : Reg) : (s.setIndex w).reg x = s.reg x := rfl
@[simp] theorem State.byteAt_setIndex (w : Word) (a : Nat) : (s.setIndex w).byteAt a = s.byteAt a := rfl
@[simp] theorem State.pixel_setIndex (w : Word) (c r : Nat) : (s.setIndex w).pixel c r = s.pixel c r := rfl
@[simp] theorem State.slot_setIndex (w : Word) (j : Nat) : (s.setIndex w).slot j = s.slot j := rfl
@[simp] theorem State.input_setIndex (w : Word) : (s.setIndex w).input = s.input := rfl

/-! `setPc` -/

@[simp] theorem State.v_setPc (w : Word) : (s.setPc w).v = s.v := rfl
@[simp] theorem State.index_setPc (w : Word) : (s.setPc w).index = s.index := rfl
@[simp] theorem State.pc_setPc (w : Word) : (s.setPc w).pc = w := rfl
@[simp] theorem State.stack_setPc (w : Word) : (s.setPc w).stack = s.stack := rfl
@[simp] theorem State.sp_setPc (w : Word) : (s.setPc w).sp = s.sp := rfl
@[simp] theorem State.dt_setPc (w : Word) : (s.setPc w).dt = s.dt := rfl
@[simp] theorem State.st_setPc (w : Word) : (s.setPc w).st = s.st := rfl
@[simp] theorem State.mem_setPc (w : Word) : (s.setPc w).mem = s.mem := rfl
@[simp] theorem State.fb_setPc (w : Word) : (s.setPc w).fb = s.fb := rfl
@[simp] theorem State.status_setPc (w : Word) : (s.setPc w).status = s.status := rfl
@[simp] theorem State.pending_setPc (w : Word) : (s.setPc w).pending = s.pending := rfl
@[simp] theorem State.stepNo_setPc (w : Word) : (s.setPc w).stepNo = s.stepNo := rfl
@[simp] theorem State.reg_setPc (w : Word) (x : Reg) : (s.setPc w).reg x = s.reg x := rfl
@[simp] theorem State.byteAt_setPc (w : Word) (a : Nat) : (s.setPc w).byteAt a = s.byteAt a := rfl
@[simp] theorem State.pixel_setPc (w : Word) (c r : Nat) : (s.setPc w).pixel c r = s.pixel c r := rfl
@[simp] theorem State.slot_setPc (w : Word) (j : Nat) : (s.setPc w).slot j = s.slot j := rfl
@[simp] theorem State.input_setPc (w : Word) : (s.setPc w).input = s.input := rfl

/-! `setDt` -/

@[simp] theorem State.v_setDt (u : Byte) : (s.setDt u).v = s.v := rfl
@[simp] theorem State.index_setDt (u : Byte) : (s.setDt u).index = s.index := rfl
@[simp] theorem State.pc_setDt (u : Byte) : (s.setDt u).pc = s.pc := rfl
@[simp] theorem State.stack_setDt (u : Byte) : (s.setDt u).stack = s.stack := rfl
@[simp] theorem State.sp_setDt (u : Byte) : (s.setDt u).sp = s.sp := rfl
@[simp] theorem State.dt_setDt (u : Byte) : (s.setDt u).dt = u := rfl
@[simp] theorem State.st_setDt (u : Byte) : (s.setDt u).st = s.st := rfl
@[simp] theorem State.mem_setDt (u : Byte) : (s.setDt u).mem = s.mem := rfl
@[simp] theorem State.fb_setDt (u : Byte) : (s.setDt u).fb = s.fb := rfl
@[simp] theorem State.status_setDt (u : Byte) : (s.setDt u).status = s.status := rfl
@[simp] theorem State.pending_setDt (u : Byte) : (s.setDt u).pending = s.pending := rfl
@[simp] theorem State.stepNo_setDt (u : Byte) : (s.setDt u).stepNo = s.stepNo := rfl
@[simp] theorem State.reg_setDt (u : Byte) (x : Reg) : (s.setDt u).reg x = s.reg x := rfl
@[simp] theorem State.byteAt_setDt (u : Byte) (a : Nat) : (s.setDt u).byteAt a = s.byteAt a := rfl
@[simp] theorem State.pixel_setDt (u : Byte) (c r : Nat) : (s.setDt u).pixel c r = s.pixel c r := rfl
@[simp] theorem State.slot_setDt (u : Byte) (j : Nat) : (s.setDt u).slot j = s.slot j := rfl
@[simp] theorem State.input_setDt (u : Byte) : (s.setDt u).input = s.input := rfl

/-! `setSt` -/

@[simp] theorem State.v_setSt (u : Byte) : (s.setSt u).v = s.v := rfl
@[simp] theorem State.index_setSt (u : Byte) : (s.setSt u).index = s.index := rfl
@[simp] theorem State.pc_setSt (u : Byte) : (s.setSt u).pc = s.pc := rfl
@[simp] theorem State.stack_setSt (u : Byte) : (s.setSt u).stack = s.stack := rfl
@[simp] theorem State.sp_setSt (u : Byte) : (s.setSt u).sp = s.sp := rfl
@[simp] theorem State.dt_setSt (u : Byte) : (s.setSt u).dt = s.dt := rfl
@[simp] theorem State.st_setSt (u : Byte) : (s.setSt u).st = u := rfl
@[simp] theorem State.mem_setSt (u : Byte) : (s.setSt u).mem = s.mem := rfl
@[simp] theorem State.fb_setSt (u : Byte) : (s.setSt u).fb = s.fb := rfl
@[simp] theorem State.status_setSt (u : Byte) : (s.setSt u).status = s.status := rfl
@[simp] theorem State.pending_setSt (u : Byte) : (s.setSt u).pending = s.pending := rfl
@[simp] theorem State.stepNo_setSt (u : Byte) : (s.setSt u).stepNo = s.stepNo := rfl
@[simp] theorem State.reg_setSt (u : Byte) (x : Reg) : (s.setSt u).reg x = s.reg x := rfl
@[simp] theorem State.byteAt_setSt (u : Byte) (a : Nat) : (s.setSt u).byteAt a = s.byteAt a := rfl
@[simp] theorem State.pixel_setSt (u : Byte) (c r : Nat) : (s.setSt u).pixel c r = s.pixel c r := rfl
@[simp] theorem State.slot_setSt (u : Byte) (j : Nat) : (s.setSt u).slot j = s.slot j := rfl
@[simp] theorem State.input_setSt (u : Byte) : (s.setSt u).input = s.input := rfl

/-! `setMem` -/

@[simp] theorem State.v_setMem (m : Memory) : (s.setMem m).v = s.v := rfl
@[simp] theorem State.index_setMem (m : Memory) : (s.setMem m).index = s.index := rfl
@[simp] theorem State.pc_setMem (m : Memory) : (s.setMem m).pc = s.pc := rfl
@[simp] theorem State.stack_setMem (m : Memory) : (s.setMem m).stack = s.stack := rfl
@[simp] theorem State.sp_setMem (m : Memory) : (s.setMem m).sp = s.sp := rfl
@[simp] theorem State.dt_setMem (m : Memory) : (s.setMem m).dt = s.dt := rfl
@[simp] theorem State.st_setMem (m : Memory) : (s.setMem m).st = s.st := rfl
@[simp] theorem State.mem_setMem (m : Memory) : (s.setMem m).mem = m := rfl
@[simp] theorem State.fb_setMem (m : Memory) : (s.setMem m).fb = s.fb := rfl
@[simp] theorem State.status_setMem (m : Memory) : (s.setMem m).status = s.status := rfl
@[simp] theorem State.pending_setMem (m : Memory) : (s.setMem m).pending = s.pending := rfl
@[simp] theorem State.stepNo_setMem (m : Memory) : (s.setMem m).stepNo = s.stepNo := rfl
@[simp] theorem State.reg_setMem (m : Memory) (x : Reg) : (s.setMem m).reg x = s.reg x := rfl
@[simp] theorem State.pixel_setMem (m : Memory) (c r : Nat) : (s.setMem m).pixel c r = s.pixel c r := rfl
@[simp] theorem State.slot_setMem (m : Memory) (j : Nat) : (s.setMem m).slot j = s.slot j := rfl
@[simp] theorem State.input_setMem (m : Memory) : (s.setMem m).input = s.input := rfl

/-! `setFb` -/

@[simp] theorem State.v_setFb (fb : Screen) : (s.setFb fb).v = s.v := rfl
@[simp] theorem State.index_setFb (fb : Screen) : (s.setFb fb).index = s.index := rfl
@[simp] theorem State.pc_setFb (fb : Screen) : (s.setFb fb).pc = s.pc := rfl
@[simp] theorem State.stack_setFb (fb : Screen) : (s.setFb fb).stack = s.stack := rfl
@[simp] theorem State.sp_setFb (fb : Screen) : (s.setFb fb).sp = s.sp := rfl
@[simp] theorem State.dt_setFb (fb : Screen) : (s.setFb fb).dt = s.dt := rfl
@[simp] theorem State.st_setFb (fb : Screen) : (s.setFb fb).st = s.st := rfl
@[simp] theorem State.mem_setFb (fb : Screen) : (s.setFb fb).mem = s.mem := rfl
@[simp] theorem State.fb_setFb (fb : Screen) : (s.setFb fb).fb = fb := rfl
@[simp] theorem State.status_setFb (fb : Screen) : (s.setFb fb).status = s.status := rfl
@[simp] theorem State.pending_setFb (fb : Screen) : (s.setFb fb).pending = s.pending := rfl
@[simp] theorem State.stepNo_setFb (fb : Screen) : (s.setFb fb).stepNo = s.stepNo := rfl
@[simp] theorem State.reg_setFb (fb : Screen) (x : Reg) : (s.setFb fb).reg x = s.reg x := rfl
@[simp] theorem State.byteAt_setFb (fb : Screen) (a : Nat) : (s.setFb fb).byteAt a = s.byteAt a := rfl
@[simp] theorem State.slot_setFb (fb : Screen) (j : Nat) : (s.setFb fb).slot j = s.slot j := rfl
@[simp] theorem State.input_setFb (fb : Screen) : (s.setFb fb).input = s.input := rfl

/-! `pop` -/

@[simp] theorem State.v_pop : (s.pop).v = s.v := rfl
@[simp] theorem State.index_pop : (s.pop).index = s.index := rfl
@[simp] theorem State.pc_pop : (s.pop).pc = s.pc := rfl
@[simp] theorem State.stack_pop : (s.pop).stack = s.stack := rfl
@[simp] theorem State.dt_pop : (s.pop).dt = s.dt := rfl
@[simp] theorem State.st_pop : (s.pop).st = s.st := rfl
@[simp] theorem State.mem_pop : (s.pop).mem = s.mem := rfl
@[simp] theorem State.fb_pop : (s.pop).fb = s.fb := rfl
@[simp] theorem State.status_pop : (s.pop).status = s.status := rfl
@[simp] theorem State.pending_pop : (s.pop).pending = s.pending := rfl
@[simp] theorem State.stepNo_pop : (s.pop).stepNo = s.stepNo := rfl
@[simp] theorem State.reg_pop (x : Reg) : (s.pop).reg x = s.reg x := rfl
@[simp] theorem State.byteAt_pop (a : Nat) : (s.pop).byteAt a = s.byteAt a := rfl
@[simp] theorem State.pixel_pop (c r : Nat) : (s.pop).pixel c r = s.pixel c r := rfl
@[simp] theorem State.slot_pop (j : Nat) : (s.pop).slot j = s.slot j := rfl
@[simp] theorem State.input_pop : (s.pop).input = s.input := rfl

/-! `advance` -/

@[simp] theorem State.v_advance : (s.advance).v = s.v := rfl
@[simp] theorem State.index_advance : (s.advance).index = s.index := rfl
@[simp] theorem State.pc_advance : (s.advance).pc = s.pc + 2 := rfl
@[simp] theorem State.stack_advance : (s.advance).stack = s.stack := rfl
@[simp] theorem State.sp_advance : (s.advance).sp = s.sp := rfl
@[simp] theorem State.dt_advance : (s.advance).dt = s.dt := rfl
@[simp] theorem State.st_advance : (s.advance).st = s.st := rfl
@[simp] theorem State.mem_advance : (s.advance).mem = s.mem := rfl
@[simp] theorem State.fb_advance : (s.advance).fb = s.fb := rfl
@[simp] theorem State.status_advance : (s.advance).status = s.status := rfl
@[simp] theorem State.pending_advance : (s.advance).pending = s.pending := rfl
@[simp] theorem State.stepNo_advance : (s.advance).stepNo = s.stepNo := rfl
@[simp] theorem State.reg_advance (x : Reg) : (s.advance).reg x = s.reg x := rfl
@[simp] theorem State.byteAt_advance (a : Nat) : (s.advance).byteAt a = s.byteAt a := rfl
@[simp] theorem State.pixel_advance (c r : Nat) : (s.advance).pixel c r = s.pixel c r := rfl
@[simp] theorem State.slot_advance (j : Nat) : (s.advance).slot j = s.slot j := rfl
@[simp] theorem State.input_advance : (s.advance).input = s.input := rfl

/-! `skipIf` -/

@[simp] theorem State.v_skipIf (b : Bool) : (s.skipIf b).v = s.v := rfl
@[simp] theorem State.index_skipIf (b : Bool) : (s.skipIf b).index = s.index := rfl
@[simp] theorem State.pc_skipIf (b : Bool) : (s.skipIf b).pc = if b then s.pc + 2 else s.pc := rfl
@[simp] theorem State.stack_skipIf (b : Bool) : (s.skipIf b).stack = s.stack := rfl
@[simp] theorem State.sp_skipIf (b : Bool) : (s.skipIf b).sp = s.sp := rfl
@[simp] theorem State.dt_skipIf (b : Bool) : (s.skipIf b).dt = s.dt := rfl
@[simp] theorem State.st_skipIf (b : Bool) : (s.skipIf b).st = s.st := rfl
@[simp] theorem State.mem_skipIf (b : Bool) : (s.skipIf b).mem = s.mem := rfl
@[simp] theorem State.fb_skipIf (b : Bool) : (s.skipIf b).fb = s.fb := rfl
@[simp] theorem State.status_skipIf (b : Bool) : (s.skipIf b).status = s.status := rfl
@[simp] theorem State.pending_skipIf (b : Bool) : (s.skipIf b).pending = s.pending := rfl
@[simp] theorem State.stepNo_skipIf (b : Bool) : (s.skipIf b).stepNo = s.stepNo := rfl
@[simp] theorem State.reg_skipIf (b : Bool) (x : Reg) : (s.skipIf b).reg x = s.reg x := rfl
@[simp] theorem State.byteAt_skipIf (b : Bool) (a : Nat) : (s.skipIf b).byteAt a = s.byteAt a := rfl
@[simp] theorem State.pixel_skipIf (b : Bool) (c r : Nat) : (s.skipIf b).pixel c r = s.pixel c r := rfl
@[simp] theorem State.slot_skipIf (b : Bool) (j : Nat) : (s.skipIf b).slot j = s.slot j := rfl
@[simp] theorem State.input_skipIf (b : Bool) : (s.skipIf b).input = s.input := rfl

/-! `setFlag` -/

@[simp] theorem State.index_setFlag (b : Bool) : (s.setFlag b).index = s.index := rfl
@[simp] theorem State.pc_setFlag (b : Bool) : (s.setFlag b).pc = s.pc := rfl
@[simp] theorem State.stack_setFlag (b : Bool) : (s.setFlag b).stack = s.stack := rfl
@[simp] theorem State.sp_setFlag (b : Bool) : (s.setFlag b).sp = s.sp := rfl
@[simp] theorem State.dt_setFlag (b : Bool) : (s.setFlag b).dt = s.dt := rfl
@[simp] theorem State.st_setFlag (b : Bool) : (s.setFlag b).st = s.st := rfl
@[simp] theorem State.mem_setFlag (b : Bool) : (s.setFlag b).mem = s.mem := rfl
@[simp] theorem State.fb_setFlag (b : Bool) : (s.setFlag b).fb = s.fb := rfl
@[simp] theorem State.status_setFlag (b : Bool) : (s.setFlag b).status = s.status := rfl
@[simp] theorem State.pending_setFlag (b : Bool) : (s.setFlag b).pending = s.pending := rfl
@[simp] theorem State.stepNo_setFlag (b : Bool) : (s.setFlag b).stepNo = s.stepNo := rfl
@[simp] theorem State.byteAt_setFlag (b : Bool) (a : Nat) : (s.setFlag b).byteAt a = s.byteAt a := rfl
@[simp] theorem State.pixel_setFlag (b : Bool) (c r : Nat) : (s.setFlag b).pixel c r = s.pixel c r := rfl
@[simp] theorem State.slot_setFlag (b : Bool) (j : Nat) : (s.setFlag b).slot j = s.slot j := rfl
@[simp] theorem State.input_setFlag (b : Bool) : (s.setFlag b).input = s.input := rfl

/-! `tick` -/

@[simp] theorem State.v_tick : (s.tick).v = s.v := rfl
@[simp] theorem State.index_tick : (s.tick).index = s.index := rfl
@[simp] theorem State.pc_tick : (s.tick).pc = s.pc := rfl
@[simp] theorem State.stack_tick : (s.tick).stack = s.stack := rfl
@[simp] theorem State.sp_tick : (s.tick).sp = s.sp := rfl
@[simp] theorem State.dt_tick : (s.tick).dt = tickDown s.dt := rfl
@[simp] theorem State.st_tick : (s.tick).st = tickDown s.st := rfl
@[simp] theorem State.mem_tick : (s.tick).mem = s.mem := rfl
@[simp] theorem State.fb_tick : (s.tick).fb = s.fb := rfl
@[simp] theorem State.status_tick : (s.tick).status = s.status := rfl
@[simp] theorem State.pending_tick : (s.tick).pending = s.pending := rfl
@[simp] theorem State.stepNo_tick : (s.tick).stepNo = s.stepNo := rfl
@[simp] theorem State.reg_tick (x : Reg) : (s.tick).reg x = s.reg x := rfl
@[simp] theorem State.byteAt_tick (a : Nat) : (s.tick).byteAt a = s.byteAt a := rfl
@[simp] theorem State.pixel_tick (c r : Nat) : (s.tick).pixel c r = s.pixel c r := rfl
@[simp] theorem State.slot_tick (j : Nat) : (s.tick).slot j = s.slot j := rfl
@[simp] theorem State.input_tick : (s.tick).input = s.input := rfl

/-! `nextInput` -/

@[simp] theorem State.v_nextInput : (s.nextInput).v = s.v := rfl
@[simp] theorem State.index_nextInput : (s.nextInput).index = s.index := rfl
@[simp] theorem State.pc_nextInput : (s.nextInput).pc = s.pc := rfl
@[simp] theorem State.stack_nextInput : (s.nextInput).stack = s.stack := rfl
@[simp] theorem State.sp_nextInput : (s.nextInput).sp = s.sp := rfl
@[simp] theorem State.dt_nextInput : (s.nextInput).dt = s.dt := rfl
@[simp] theorem State.st_nextInput : (s.nextInput).st = s.st := rfl
@[simp] theorem State.mem_nextInput : (s.nextInput).mem = s.mem := rfl
@[simp] theorem State.fb_nextInput : (s.nextInput).fb = s.fb := rfl
@[simp] theorem State.status_nextInput : (s.nextInput).status = s.status := rfl
@[simp] theorem State.pending_nextInput : (s.nextInput).pending = s.pending.tail := rfl
@[simp] theorem State.stepNo_nextInput : (s.nextInput).stepNo = s.stepNo + 1 := rfl
@[simp] theorem State.reg_nextInput (x : Reg) : (s.nextInput).reg x = s.reg x := rfl
@[simp] theorem State.byteAt_nextInput (a : Nat) : (s.nextInput).byteAt a = s.byteAt a := rfl
@[simp] theorem State.pixel_nextInput (c r : Nat) : (s.nextInput).pixel c r = s.pixel c r := rfl
@[simp] theorem State.slot_nextInput (j : Nat) : (s.nextInput).slot j = s.slot j := rfl

/-! `takeFault` -/

@[simp] theorem State.v_takeFault (k : FaultKind) (p : Word) (o : Option Word) : (s.takeFault k p o).v = s.v := rfl
@[simp] theorem State.index_takeFault (k : FaultKind) (p : Word) (o : Option Word) : (s.takeFault k p o).index = s.index := rfl
@[simp] theorem State.pc_takeFault (k : FaultKind) (p : Word) (o : Option Word) : (s.takeFault k p o).pc = p := rfl
@[simp] theorem State.stack_takeFault (k : FaultKind) (p : Word) (o : Option Word) : (s.takeFault k p o).stack = s.stack := rfl
@[simp] theorem State.sp_takeFault (k : FaultKind) (p : Word) (o : Option Word) : (s.takeFault k p o).sp = s.sp := rfl
@[simp] theorem State.dt_takeFault (k : FaultKind) (p : Word) (o : Option Word) : (s.takeFault k p o).dt = s.dt := rfl
@[simp] theorem State.st_takeFault (k : FaultKind) (p : Word) (o : Option Word) : (s.takeFault k p o).st = s.st := rfl
@[simp] theorem State.mem_takeFault (k : FaultKind) (p : Word) (o : Option Word) : (s.takeFault k p o).mem = s.mem := rfl
@[simp] theorem State.fb_takeFault (k : FaultKind) (p : Word) (o : Option Word) : (s.takeFault k p o).fb = s.fb := rfl
@[simp] theorem State.status_takeFault (k : FaultKind) (p : Word) (o : Option Word) : (s.takeFault k p o).status = .faulted k p o := rfl
@[simp] theorem State.pending_takeFault (k : FaultKind) (p : Word) (o : Option Word) : (s.takeFault k p o).pending = s.pending := rfl
@[simp] theorem State.stepNo_takeFault (k : FaultKind) (p : Word) (o : Option Word) : (s.takeFault k p o).stepNo = s.stepNo := rfl
@[simp] theorem State.reg_takeFault (k : FaultKind) (p : Word) (o : Option Word) (x : Reg) : (s.takeFault k p o).reg x = s.reg x := rfl
@[simp] theorem State.byteAt_takeFault (k : FaultKind) (p : Word) (o : Option Word) (a : Nat) : (s.takeFault k p o).byteAt a = s.byteAt a := rfl
@[simp] theorem State.pixel_takeFault (k : FaultKind) (p : Word) (o : Option Word) (c r : Nat) : (s.takeFault k p o).pixel c r = s.pixel c r := rfl
@[simp] theorem State.slot_takeFault (k : FaultKind) (p : Word) (o : Option Word) (j : Nat) : (s.takeFault k p o).slot j = s.slot j := rfl
@[simp] theorem State.input_takeFault (k : FaultKind) (p : Word) (o : Option Word) : (s.takeFault k p o).input = s.input := rfl

/-! `push` -/

@[simp] theorem State.v_push (w : Word) : (s.push w).v = s.v := by
  unfold State.push; split <;> rfl
@[simp] theorem State.index_push (w : Word) : (s.push w).index = s.index := by
  unfold State.push; split <;> rfl
@[simp] theorem State.pc_push (w : Word) : (s.push w).pc = s.pc := by
  unfold State.push; split <;> rfl
@[simp] theorem State.dt_push (w : Word) : (s.push w).dt = s.dt := by
  unfold State.push; split <;> rfl
@[simp] theorem State.st_push (w : Word) : (s.push w).st = s.st := by
  unfold State.push; split <;> rfl
@[simp] theorem State.mem_push (w : Word) : (s.push w).mem = s.mem := by
  unfold State.push; split <;> rfl
@[simp] theorem State.fb_push (w : Word) : (s.push w).fb = s.fb := by
  unfold State.push; split <;> rfl
@[simp] theorem State.status_push (w : Word) : (s.push w).status = s.status := by
  unfold State.push; split <;> rfl
@[simp] theorem State.pending_push (w : Word) : (s.push w).pending = s.pending := by
  unfold State.push; split <;> rfl
@[simp] theorem State.stepNo_push (w : Word) : (s.push w).stepNo = s.stepNo := by
  unfold State.push; split <;> rfl
@[simp] theorem State.reg_push (w : Word) (x : Reg) : (s.push w).reg x = s.reg x := by
  unfold State.push; split <;> rfl
@[simp] theorem State.byteAt_push (w : Word) (a : Nat) : (s.push w).byteAt a = s.byteAt a := by
  unfold State.push; split <;> rfl
@[simp] theorem State.pixel_push (w : Word) (c r : Nat) : (s.push w).pixel c r = s.pixel c r := by
  unfold State.push; split <;> rfl
@[simp] theorem State.input_push (w : Word) : (s.push w).input = s.input := by
  unfold State.push; split <;> rfl

end Sys2Proof.Machine
end

