-- ==== Sys2Proof/Laws/Registers.lean ====
section
/-! SUPPORT. Reading a register, or a stack slot, after it or another one is written. -/

namespace Sys2Proof.Machine

theorem State.reg_setReg (s : State) (x z : Reg) (u : Byte) :
    (s.setReg x u).reg z = if z = x then u else s.reg z := by
  unfold State.reg State.setReg
  by_cases h : z = x
  · subst h; simp
  · have h' : x.toNat ≠ z.toNat := fun e => h (BitVec.eq_of_toNat_eq e.symm)
    simp [h, h']

@[simp] theorem State.reg_setReg_same (s : State) (x : Reg) (u : Byte) : (s.setReg x u).reg x = u := by
  simp [State.reg_setReg]

theorem State.reg_setReg_other (s : State) {x z : Reg} (u : Byte) (h : z ≠ x) :
    (s.setReg x u).reg z = s.reg z := by
  simp [State.reg_setReg, h]

theorem State.reg_setFlag (s : State) (c : Bool) (z : Reg) :
    (s.setFlag c).reg z = if z = vf then flagByte c else s.reg z :=
  State.reg_setReg s vf z (flagByte c)

@[simp] theorem State.reg_setFlag_vf (s : State) (c : Bool) : (s.setFlag c).reg vf = flagByte c := by
  simp [State.reg_setFlag]

theorem State.reg_setFlag_other (s : State) (c : Bool) {z : Reg} (h : z ≠ vf) :
    (s.setFlag c).reg z = s.reg z := by
  simp [State.reg_setFlag, h]

/-- Two states with the same registers one by one have the same register file. -/
theorem State.v_ext {s t : State} (h : ∀ z, t.reg z = s.reg z) : t.v = s.v := by
  apply Vector.ext
  intro k hk
  have e := h (BitVec.ofNat 4 k)
  have hk' : k % 16 = k := Nat.mod_eq_of_lt hk
  simpa [State.reg, hk'] using e

theorem State.slot_eq_getElem (s : State) {j : Nat} (h : j < 16) : s.slot j = s.stack[j] := by
  simp [State.slot, List.getD, h]

/-- `sp` after a push with a free slot. -/
theorem State.sp_push (s : State) (a : Word) (h : s.sp.val < 16) : (s.push a).sp.val = s.sp.val + 1 := by
  simp [State.push, h]

/-- The slots after a push with a free slot. -/
theorem State.slot_push (s : State) (a : Word) (h : s.sp.val < 16) (j : Nat) :
    (s.push a).slot j = if j = s.sp.val then a else s.slot j := by
  unfold State.push State.slot
  rw [dif_pos h]
  by_cases e : j = s.sp.val
  · subst e; simp [List.getD, h]
  · have e' : ¬s.sp.val = j := fun q => e q.symm
    simp [List.getD, e, e']

theorem State.sp_pop (s : State) : s.pop.sp.val = s.sp.val - 1 := rfl

theorem tickDown_toNat (t : Byte) : (tickDown t).toNat = t.toNat - 1 := by
  unfold tickDown
  split
  · next h => subst h; rfl
  · next h =>
    have : t.toNat ≠ 0 := fun e => h (BitVec.eq_of_toNat_eq e)
    bv_omega

end Sys2Proof.Machine
end

