-- ==== Sys2Proof/Laws/Operands.lean ====
section
/-! SUPPORT. What each operand form gives, and when each check finds a fault. -/

namespace Sys2Proof.Machine

/-! Check, then commit -/

@[simp] theorem checked_none (i : Instr) (s t : State) : checked i s none t = .next t := rfl

@[simp] theorem checked_some (i : Instr) (s t : State) (k : FaultKind) :
    checked i s (some k) t = .next (s.takeFault k (s.pc - 2) (some (encode i))) := rfl

/-- All that `checked` can answer: the effect where the check found nothing, or the fault on the state given. -/
theorem checked_cases {i : Instr} {s t t' : State} {check : Option FaultKind}
    (h : checked i s check t = .next t') :
    (check = none ∧ t' = t) ∨
      ∃ k, check = some k ∧ t' = s.takeFault k (s.pc - 2) (some (encode i)) := by
  cases check with
  | none => exact .inl ⟨rfl, by simpa using h.symm⟩
  | some k => exact .inr ⟨k, rfl, by simpa using h.symm⟩

/-! Immediates and sums -/

@[simp] theorem address_toNat (nnn : Addr12) : (address nnn).toNat = nnn.toNat := by
  have := nnn.isLt
  simp [address, BitVec.toNat_setWidth]
  omega

@[simp] theorem offsetTarget_toNat (nnn : Addr12) (u : Byte) :
    (offsetTarget nnn u).toNat = nnn.toNat + u.toNat := by
  have := nnn.isLt
  have := u.isLt
  simp [offsetTarget, BitVec.toNat_ofNat]
  omega

@[simp] theorem glyphAddress_toNat (u : Byte) : (glyphAddress u).toNat = 0x050 + 5 * u.toNat := by
  have := u.isLt
  simp [glyphAddress, BitVec.toNat_ofNat, Config.fontBase]
  omega

theorem checkIndexSum_eq_none {sum : Nat} : checkIndexSum sum = none ↔ sum ≤ 0xFFFF := by
  unfold checkIndexSum; split <;> simp <;> omega

theorem checkIndexSum_of_gt {sum : Nat} (h : 0xFFFF < sum) :
    checkIndexSum sum = some (.indexOverflow sum) := by
  unfold checkIndexSum; rw [if_pos h]

/-! Keys -/

theorem checkKey_eq_none {u : Byte} : checkKey u = none ↔ u.toNat ≤ 15 := by
  unfold checkKey; split <;> simp <;> omega

theorem checkKey_of_gt {u : Byte} (h : 15 < u.toNat) : checkKey u = some (.keyIndex u) := by
  unfold checkKey; rw [if_pos h]

theorem State.keyPressed_of_lt (s : State) {u : Byte} (h : u.toNat < 16) :
    s.keyPressed u = s.input.keys[u.toNat] := by
  have e : Fin.ofNat 16 u.toNat = ⟨u.toNat, h⟩ := Fin.ext (Nat.mod_eq_of_lt h)
  unfold State.keyPressed State.key
  rw [e]
  rfl

theorem lowestKey_eq_some {keys : Keys} {k : Fin 16} (h : lowestKey keys = some k) :
    keys[k] = true ∧ ∀ j : Fin 16, j < k → keys[j] = false := by
  unfold lowestKey at h
  rw [List.find?_eq_some_iff_append] at h
  obtain ⟨hk, as, bs, e, hb⟩ := h
  refine ⟨hk, fun j hj => ?_⟩
  have hm : j ∈ as := by
    have hp : (List.finRange 16).Pairwise (· < ·) := List.pairwise_lt_finRange 16
    have hj' : j ∈ List.finRange 16 := List.mem_finRange j
    rw [e] at hp hj'
    rw [List.mem_append, List.mem_cons] at hj'
    rcases hj' with h | h | h
    · exact h
    · exact absurd hj (by rw [h]; exact lt_irrefl k)
    · rw [List.pairwise_append] at hp
      have := (List.pairwise_cons.mp hp.2.1).1 j h
      exact absurd hj (lt_asymm this)
  simpa using hb j hm

theorem lowestKey_eq_none {keys : Keys} : lowestKey keys = none ↔ ∀ k : Fin 16, keys[k] = false := by
  unfold lowestKey
  simp

/-! Decimal digits and register blocks -/

@[simp] theorem decimalDigits_length (u : Byte) : (decimalDigits u).length = 3 := rfl

theorem decimalDigits_toNat (u : Byte) :
    (decimalDigits u).map BitVec.toNat = [u.toNat / 100, u.toNat / 10 % 10, u.toNat % 10] := by
  simp [decimalDigits]

@[simp] theorem State.regBlock_length (s : State) (x : Reg) : (s.regBlock x).length = x.toNat + 1 := by
  have := x.isLt
  simp [State.regBlock]
  omega

theorem State.regBlock_getD (s : State) {x z : Reg} (h : z.toNat ≤ x.toNat) :
    (s.regBlock x).getD z.toNat 0 = s.reg z := by
  have hz := z.isLt
  have hlt : z.toNat < x.toNat + 1 := by omega
  simp [State.regBlock, State.reg, List.getD, hlt, hz]

/-- The registers after a block load. -/
theorem State.reg_loadBlock (s : State) (x : Reg) (a : Nat) (z : Reg) :
    (s.setRegs (s.loadBlock x a)).reg z =
      if z.toNat ≤ x.toNat then s.byteAt (a + z.toNat) else s.reg z := by
  unfold State.reg State.setRegs State.loadBlock
  simp

/-! Sprites -/

theorem State.mem_rowPixels (s : State) (o : Nat × Nat) (row : Nat) (p : Nat × Nat) :
    p ∈ s.rowPixels o row ↔
      ∃ col, col < 8 ∧ spriteBit (s.byteAt (s.index.toNat + row)) col = true ∧
        p = (o.1 + col, o.2 + row) := by
  simp only [State.rowPixels, List.mem_map, List.mem_filter, List.mem_range]
  constructor
  · rintro ⟨col, ⟨h1, h2⟩, rfl⟩; exact ⟨col, h1, h2, rfl⟩
  · rintro ⟨col, h1, h2, rfl⟩; exact ⟨col, ⟨h1, h2⟩, rfl⟩

/-- The pixels of a sprite: a set bit of row `row` and column `col`, at the origin plus both. -/
theorem State.mem_spritePixels (s : State) (o : Nat × Nat) (n : Nat) (p : Nat × Nat) :
    p ∈ s.spritePixels o n ↔
      ∃ row col, row < n ∧ col < 8 ∧ spriteBit (s.byteAt (s.index.toNat + row)) col = true ∧
        p = (o.1 + col, o.2 + row) := by
  simp only [State.spritePixels, List.mem_flatMap, List.mem_range, State.mem_rowPixels]
  constructor
  · rintro ⟨row, h, col, h1, h2, rfl⟩; exact ⟨row, col, h, h1, h2, rfl⟩
  · rintro ⟨row, col, h, h1, h2, rfl⟩; exact ⟨row, h, col, h1, h2, rfl⟩

theorem State.nodup_rowPixels (s : State) (o : Nat × Nat) (row : Nat) : (s.rowPixels o row).Nodup := by
  unfold State.rowPixels
  apply List.Nodup.map
  · intro a b h
    simpa using h
  · exact List.Nodup.filter _ List.nodup_range

/-- No pixel is drawn twice by one sprite. -/
theorem State.nodup_spritePixels (s : State) (o : Nat × Nat) (n : Nat) : (s.spritePixels o n).Nodup := by
  unfold State.spritePixels
  rw [List.nodup_flatMap]
  refine ⟨fun row _ => s.nodup_rowPixels o row, ?_⟩
  refine List.Pairwise.imp ?_ (List.nodup_range (n := n))
  intro a b hab p hp hq
  rw [State.mem_rowPixels] at hp hq
  obtain ⟨_, _, _, rfl⟩ := hp
  obtain ⟨_, _, _, e⟩ := hq
  simp at e
  omega

/-- The check of a row finds nothing exactly where its address exists and its set bits lie on the screen. -/
theorem State.checkRow_eq_none (s : State) (o : Nat × Nat) (row : Nat) :
    s.checkRow o row = none ↔
      s.index.toNat + row ≤ 0xFFF ∧ ∀ p ∈ s.rowPixels o row, p.1 ≤ 63 ∧ p.2 ≤ 31 := by
  unfold State.checkRow
  by_cases h : s.index.toNat + row > 0xFFF
  · rw [if_pos h]
    simp
    omega
  · rw [if_neg h]
    simp only [Option.map_eq_none_iff, List.find?_eq_none, offScreen, Bool.or_eq_true,
      decide_eq_true_eq]
    constructor
    · intro q
      refine ⟨by omega, fun p hp => ?_⟩
      have := q p hp
      omega
    · rintro ⟨_, q⟩ p hp
      have := q p hp
      omega

/-- The check phase of `DRW` finds nothing exactly where every row does. -/
theorem State.checkSprite_eq_none (s : State) (o : Nat × Nat) (n : Nat) :
    s.checkSprite o n = none ↔ ∀ row, row < n → s.checkRow o row = none := by
  simp [State.checkSprite]

/-- A checked sprite lies on the screen. -/
theorem State.onScreen_of_checkSprite {s : State} {o : Nat × Nat} {n : Nat}
    (h : s.checkSprite o n = none) : OnScreen (s.spritePixels o n) := by
  intro p hp
  rw [State.mem_spritePixels] at hp
  obtain ⟨row, col, h1, h2, h3, rfl⟩ := hp
  have hr := ((s.checkRow_eq_none o row).mp ((s.checkSprite_eq_none o n).mp h row h1)).2
    (o.1 + col, o.2 + row) ((s.mem_rowPixels o row _).mpr ⟨col, h2, h3, rfl⟩)
  simp only at hr ⊢
  omega

end Sys2Proof.Machine
end

