-- ==== Sys2Proof/Laws/Frames.lean ====
section
/-! SUPPORT. The frames of the named updates, and what the terms that statements are made of say of the model's
own operations. -/

namespace Sys2Proof.Machine

theorem onlyRegsAndPc_setPc (s : State) (w : Word) : OnlyRegsAndPc [] s (s.setPc w) :=
  ⟨fun _ _ => rfl, rfl, fun _ => rfl, fun _ _ => rfl, ⟨rfl, fun _ => rfl⟩, ⟨rfl, rfl⟩, rfl, rfl, rfl⟩

theorem onlyRegs_setReg (s : State) (x : Reg) (u : Byte) : OnlyRegs [x] s (s.setReg x u) :=
  ⟨rfl, fun _ hz => State.reg_setReg_other s u (by simpa using hz), rfl, fun _ => rfl, fun _ _ => rfl,
    ⟨rfl, fun _ => rfl⟩, ⟨rfl, rfl⟩, rfl, rfl, rfl⟩

theorem onlyRegs_setReg_setFlag (s : State) (x : Reg) (u : Byte) (c : Bool) :
    OnlyRegs [x, vf] s ((s.setReg x u).setFlag c) := by
  refine ⟨rfl, fun z hz => ?_, rfl, fun _ => rfl, fun _ _ => rfl, ⟨rfl, fun _ => rfl⟩, ⟨rfl, rfl⟩, rfl, rfl,
    rfl⟩
  simp only [List.mem_cons, List.not_mem_nil, or_false, not_or] at hz
  rw [State.reg_setFlag_other _ _ hz.2, State.reg_setReg_other _ _ hz.1]

theorem onlyRegs_shiftReg (s : State) (order : ShiftVfOrder) (x : Reg) (shift : Byte → Byte)
    (bitOut : Byte → Bool) : OnlyRegs [x, vf] s (s.shiftReg order x shift bitOut) := by
  cases order with
  | flagLast => exact onlyRegs_setReg_setFlag s x _ _
  | flagFirst =>
    refine ⟨rfl, fun z hz => ?_, rfl, fun _ => rfl, fun _ _ => rfl, ⟨rfl, fun _ => rfl⟩, ⟨rfl, rfl⟩, rfl,
      rfl, rfl⟩
    simp only [List.mem_cons, List.not_mem_nil, or_false, not_or] at hz
    simp only [State.shiftReg]
    rw [State.reg_setReg_other _ _ hz.1, State.reg_setFlag_other _ _ hz.2]

/-- The frame of a block load: V0 to Vx. -/
theorem onlyRegs_setRegs (s : State) (ws : List Reg) (v : Vector Byte 16)
    (h : ∀ z, z ∉ ws → (s.setRegs v).reg z = s.reg z) : OnlyRegs ws s (s.setRegs v) :=
  ⟨rfl, h, rfl, fun _ => rfl, fun _ _ => rfl, ⟨rfl, fun _ => rfl⟩, ⟨rfl, rfl⟩, rfl, rfl, rfl⟩

theorem onlyIndex_setIndex (s : State) (w : Word) : OnlyIndex s (s.setIndex w) :=
  ⟨rfl, fun _ _ => rfl, fun _ => rfl, fun _ _ => rfl, ⟨rfl, fun _ => rfl⟩, ⟨rfl, rfl⟩, rfl, rfl, rfl⟩

theorem onlyBytes_storeBytes {s : State} (hm : s.MemOk) (a : Nat) (bytes : List Byte)
    (h : a + bytes.length ≤ Config.memSize) :
    OnlyBytes a bytes.length s (s.setMem (s.mem.storeBytes a bytes)) :=
  ⟨rfl, fun _ _ => rfl, rfl, fun _ hb => Memory.byteAt_storeBytes_outside hm h hb, fun _ _ => rfl,
    ⟨rfl, fun _ => rfl⟩, ⟨rfl, rfl⟩, rfl, rfl, rfl⟩

theorem onlyStackAndPc_push_setPc (s : State) (a w : Word) : OnlyStackAndPc s ((s.push a).setPc w) :=
  ⟨fun _ _ => by simp, by simp, fun _ => by simp, fun _ _ => by simp, ⟨by simp, by simp⟩, by simp, by simp,
    by simp⟩

theorem onlyStackAndPc_pop_setPc (s : State) (w : Word) : OnlyStackAndPc s (s.pop.setPc w) :=
  ⟨fun _ _ => rfl, rfl, fun _ => rfl, fun _ _ => rfl, ⟨rfl, rfl⟩, rfl, rfl, rfl⟩

theorem onlyRegsAndPixels_setFlag_setFb (s : State) (c : Bool) (fb : Screen) :
    OnlyRegsAndPixels [vf] s ((s.setFlag c).setFb fb) :=
  ⟨rfl, fun _ hz => State.reg_setFlag_other s c (by simpa using hz), rfl, fun _ => rfl,
    ⟨rfl, fun _ => rfl⟩, ⟨rfl, rfl⟩, rfl, rfl, rfl⟩

theorem takesFault_takeFault (i : Instr) (k : FaultKind) (s : State) :
    TakesFault i k s (s.takeFault k (s.pc - 2) (some (encode i))) := rfl

/-- The address the bounds check names is the first one out of range, and there is one only where the check
fails. -/
theorem firstOutOfRange_iff {base k a : Nat} :
    FirstOutOfRange base k a ↔ 0xFFF < base + k ∧ a = max base 0x1000 := by
  constructor
  · rintro ⟨h1, h2, h3, h4⟩
    refine ⟨by omega, ?_⟩
    by_cases q : base ≤ 0xFFF
    · have := h4 0x1000 (by omega); omega
    · have := h4 base (Nat.le_refl _); omega
  · rintro ⟨h1, rfl⟩
    exact ⟨by omega, by omega, by omega, fun b _ _ => by omega⟩

theorem mem_regsWritten_loadRegs {x z : Reg} : z ∈ regsWritten (.loadRegs x) ↔ z.toNat ≤ x.toNat := by
  have e : regsWritten (.loadRegs x) = (List.range (x.toNat + 1)).map (BitVec.ofNat 4) := rfl
  rw [e, List.mem_map]
  constructor
  · rintro ⟨k, hk, rfl⟩
    rw [List.mem_range] at hk
    have := x.isLt
    simp only [BitVec.toNat_ofNat]
    omega
  · intro h
    exact ⟨z.toNat, List.mem_range.mpr (by omega), by simp⟩

/-- A sprite covers exactly the pixels it draws. -/
theorem spriteCovers_iff (s : State) (x y : Reg) (n : BitVec 4) (c r : Nat) :
    SpriteCovers s x y n c r ↔ (c, r) ∈ s.spritePixels (spriteOrigin (s.reg x) (s.reg y)) n.toNat := by
  rw [State.mem_spritePixels]
  constructor
  · rintro ⟨row, col, h1, ⟨h2, h3⟩, rfl, rfl⟩
    exact ⟨row, col, h1, h2, h3, rfl⟩
  · rintro ⟨row, col, h1, h2, h3, e⟩
    simp only [Prod.mk.injEq] at e
    exact ⟨row, col, h1, ⟨h2, h3⟩, e.1, e.2⟩

/-- A row fits exactly where its check finds nothing. -/
theorem rowFits_iff (s : State) (x y : Reg) (row : Nat) :
    RowFits s x y row ↔ s.checkRow (spriteOrigin (s.reg x) (s.reg y)) row = none := by
  rw [State.checkRow_eq_none]
  refine and_congr_right fun _ => ?_
  constructor
  · intro h p hp
    rw [State.mem_rowPixels] at hp
    obtain ⟨col, h2, h3, rfl⟩ := hp
    exact h col ⟨h2, h3⟩
  · rintro h col ⟨h2, h3⟩
    exact h _ ((State.mem_rowPixels s _ row _).mpr ⟨col, h2, h3, rfl⟩)

/-- A sprite fits exactly where the check phase finds nothing. -/
theorem spriteFits_iff (s : State) (x y : Reg) (n : BitVec 4) :
    SpriteFits s x y n ↔ s.checkSprite (spriteOrigin (s.reg x) (s.reg y)) n.toNat = none := by
  rw [State.checkSprite_eq_none]
  exact forall_congr' fun row => imp_congr_right fun _ => rowFits_iff s x y row

end Sys2Proof.Machine
end

