-- ==== Sys2Proof/Laws/PerInstr.lean ====
section
/-! SUPPORT. A family of statements about every instruction: its word fits its own row of the opcode map
(30_encoding.md R73). -/

namespace Sys2Proof

/-! What the masks of the opcode map leave of a word put together from parts -/

theorem two_and_F000 (a : BitVec 4) (b : BitVec 12) : (a ++ b) &&& 0xF000#16 = a ++ 0#12 := by
  rw [show (0xF000#16 : Word) = 0xF#4 ++ 0#12 from rfl, BitVec.and_append]
  congr 1 <;> first | exact BitVec.and_allOnes | exact BitVec.and_zero

theorem xkk_and_F000 (a x : BitVec 4) (k : BitVec 8) : (a ++ x ++ k) &&& 0xF000#16 = a ++ 0#4 ++ 0#8 := by
  rw [show (0xF000#16 : Word) = 0xF#4 ++ 0#4 ++ 0#8 from rfl, BitVec.and_append,
    BitVec.and_append]
  congr 2 <;> first | exact BitVec.and_allOnes | exact BitVec.and_zero

theorem xkk_and_F0FF (a x : BitVec 4) (k : BitVec 8) : (a ++ x ++ k) &&& 0xF0FF#16 = a ++ 0#4 ++ k := by
  rw [show (0xF0FF#16 : Word) = 0xF#4 ++ 0#4 ++ 0xFF#8 from rfl, BitVec.and_append,
    BitVec.and_append]
  congr 2 <;> first | exact BitVec.and_allOnes | exact BitVec.and_zero

theorem xyn_and_F000 (a x y n : BitVec 4) :
    (a ++ x ++ y ++ n) &&& 0xF000#16 = a ++ 0#4 ++ 0#4 ++ 0#4 := by
  rw [show (0xF000#16 : Word) = 0xF#4 ++ 0#4 ++ 0#4 ++ 0#4 from rfl, BitVec.and_append,
    BitVec.and_append, BitVec.and_append]
  congr 3 <;> first | exact BitVec.and_allOnes | exact BitVec.and_zero

theorem xyn_and_F00F (a x y n : BitVec 4) :
    (a ++ x ++ y ++ n) &&& 0xF00F#16 = a ++ 0#4 ++ 0#4 ++ n := by
  rw [show (0xF00F#16 : Word) = 0xF#4 ++ 0#4 ++ 0#4 ++ 0xF#4 from rfl, BitVec.and_append,
    BitVec.and_append, BitVec.and_append]
  congr 3 <;> first | exact BitVec.and_allOnes | exact BitVec.and_zero

theorem dn_and_F00F (a : BitVec 4) (d : BitVec 8) (n : BitVec 4) :
    (a ++ d ++ n) &&& 0xF00F#16 = a ++ 0#8 ++ n := by
  rw [show (0xF00F#16 : Word) = 0xF#4 ++ 0#8 ++ 0xF#4 from rfl, BitVec.and_append,
    BitVec.and_append]
  congr 2 <;> first | exact BitVec.and_allOnes | exact BitVec.and_zero

/-- The mask and the match of an instruction's row in the opcode map (30_encoding.md R73); `NOP`, the default
row, has none. -/
def tableRow : Instr → Option (Word × Word)
  | .cls _ => some (0xF00F, 0x0000)
  | .ret _ => some (0xF00F, 0x000E)
  | .jp _ => some (0xF000, 0x1000)
  | .call _ => some (0xF000, 0x2000)
  | .seImm _ _ => some (0xF000, 0x3000)
  | .sneImm _ _ => some (0xF000, 0x4000)
  | .seReg _ _ _ => some (0xF000, 0x5000)
  | .ldImm _ _ => some (0xF000, 0x6000)
  | .addImm _ _ => some (0xF000, 0x7000)
  | .ldReg _ _ => some (0xF00F, 0x8000)
  | .or _ _ => some (0xF00F, 0x8001)
  | .and _ _ => some (0xF00F, 0x8002)
  | .xor _ _ => some (0xF00F, 0x8003)
  | .addReg _ _ => some (0xF00F, 0x8004)
  | .sub _ _ => some (0xF00F, 0x8005)
  | .shr _ _ => some (0xF00F, 0x8006)
  | .subn _ _ => some (0xF00F, 0x8007)
  | .shl _ _ => some (0xF00F, 0x800E)
  | .sneReg _ _ _ => some (0xF000, 0x9000)
  | .ldI _ => some (0xF000, 0xA000)
  | .jpV0 _ => some (0xF000, 0xB000)
  | .rnd _ _ => some (0xF000, 0xC000)
  | .drw _ _ _ => some (0xF000, 0xD000)
  | .skp _ _ => some (0xF00F, 0xE00E)
  | .sknp _ _ => some (0xF00F, 0xE001)
  | .ldVxDT _ => some (0xF0FF, 0xF007)
  | .ldVxK _ => some (0xF0FF, 0xF00A)
  | .ldDTVx _ => some (0xF0FF, 0xF015)
  | .ldSTVx _ => some (0xF0FF, 0xF018)
  | .addI _ => some (0xF0FF, 0xF01E)
  | .ldF _ => some (0xF0FF, 0xF029)
  | .ldB _ => some (0xF0FF, 0xF033)
  | .storeRegs _ => some (0xF0FF, 0xF055)
  | .loadRegs _ => some (0xF0FF, 0xF065)
  | .nop _ => none

/-- The word of `i` fits the row of `i`; for `NOP`, it is one of the words that 48_null.md R141 lists. -/
def Laws.TableRow.Statement (i : Instr) : Prop :=
  i.WellFormed →
    match tableRow i with
    | some (mask, value) => encode i &&& mask = value
    | none => unassigned (encode i) = true

theorem Laws.TableRow.cls (d : BitVec 8) : Statement (.cls d) :=
  fun _ => dn_and_F00F 0x0#4 d 0x0#4
theorem Laws.TableRow.ret (d : BitVec 8) : Statement (.ret d) :=
  fun _ => dn_and_F00F 0x0#4 d 0xE#4
theorem Laws.TableRow.jp (nnn : Addr12) : Statement (.jp nnn) :=
  fun _ => two_and_F000 0x1#4 nnn
theorem Laws.TableRow.call (nnn : Addr12) : Statement (.call nnn) :=
  fun _ => two_and_F000 0x2#4 nnn
theorem Laws.TableRow.seImm (x : Reg) (kk : Byte) : Statement (.seImm x kk) :=
  fun _ => xkk_and_F000 0x3#4 x kk
theorem Laws.TableRow.sneImm (x : Reg) (kk : Byte) : Statement (.sneImm x kk) :=
  fun _ => xkk_and_F000 0x4#4 x kk
theorem Laws.TableRow.seReg (x y : Reg) (d : BitVec 4) : Statement (.seReg x y d) :=
  fun _ => xyn_and_F000 0x5#4 x y d
theorem Laws.TableRow.ldImm (x : Reg) (kk : Byte) : Statement (.ldImm x kk) :=
  fun _ => xkk_and_F000 0x6#4 x kk
theorem Laws.TableRow.addImm (x : Reg) (kk : Byte) : Statement (.addImm x kk) :=
  fun _ => xkk_and_F000 0x7#4 x kk
theorem Laws.TableRow.ldReg (x y : Reg) : Statement (.ldReg x y) :=
  fun _ => xyn_and_F00F 0x8#4 x y 0x0#4
theorem Laws.TableRow.or (x y : Reg) : Statement (.or x y) :=
  fun _ => xyn_and_F00F 0x8#4 x y 0x1#4
theorem Laws.TableRow.and (x y : Reg) : Statement (.and x y) :=
  fun _ => xyn_and_F00F 0x8#4 x y 0x2#4
theorem Laws.TableRow.xor (x y : Reg) : Statement (.xor x y) :=
  fun _ => xyn_and_F00F 0x8#4 x y 0x3#4
theorem Laws.TableRow.addReg (x y : Reg) : Statement (.addReg x y) :=
  fun _ => xyn_and_F00F 0x8#4 x y 0x4#4
theorem Laws.TableRow.sub (x y : Reg) : Statement (.sub x y) :=
  fun _ => xyn_and_F00F 0x8#4 x y 0x5#4
theorem Laws.TableRow.shr (x : Reg) (d : BitVec 4) : Statement (.shr x d) :=
  fun _ => xyn_and_F00F 0x8#4 x d 0x6#4
theorem Laws.TableRow.subn (x y : Reg) : Statement (.subn x y) :=
  fun _ => xyn_and_F00F 0x8#4 x y 0x7#4
theorem Laws.TableRow.shl (x : Reg) (d : BitVec 4) : Statement (.shl x d) :=
  fun _ => xyn_and_F00F 0x8#4 x d 0xE#4
theorem Laws.TableRow.sneReg (x y : Reg) (d : BitVec 4) : Statement (.sneReg x y d) :=
  fun _ => xyn_and_F000 0x9#4 x y d
theorem Laws.TableRow.ldI (nnn : Addr12) : Statement (.ldI nnn) :=
  fun _ => two_and_F000 0xA#4 nnn
theorem Laws.TableRow.jpV0 (nnn : Addr12) : Statement (.jpV0 nnn) :=
  fun _ => two_and_F000 0xB#4 nnn
theorem Laws.TableRow.rnd (x : Reg) (kk : Byte) : Statement (.rnd x kk) :=
  fun _ => xkk_and_F000 0xC#4 x kk
theorem Laws.TableRow.drw (x y : Reg) (n : BitVec 4) : Statement (.drw x y n) :=
  fun _ => xyn_and_F000 0xD#4 x y n
theorem Laws.TableRow.skp (x : Reg) (d : BitVec 4) : Statement (.skp x d) :=
  fun _ => xyn_and_F00F 0xE#4 x d 0xE#4
theorem Laws.TableRow.sknp (x : Reg) (d : BitVec 4) : Statement (.sknp x d) :=
  fun _ => xyn_and_F00F 0xE#4 x d 0x1#4
theorem Laws.TableRow.ldVxDT (x : Reg) : Statement (.ldVxDT x) :=
  fun _ => xkk_and_F0FF 0xF#4 x 0x07#8
theorem Laws.TableRow.ldVxK (x : Reg) : Statement (.ldVxK x) :=
  fun _ => xkk_and_F0FF 0xF#4 x 0x0A#8
theorem Laws.TableRow.ldDTVx (x : Reg) : Statement (.ldDTVx x) :=
  fun _ => xkk_and_F0FF 0xF#4 x 0x15#8
theorem Laws.TableRow.ldSTVx (x : Reg) : Statement (.ldSTVx x) :=
  fun _ => xkk_and_F0FF 0xF#4 x 0x18#8
theorem Laws.TableRow.addI (x : Reg) : Statement (.addI x) :=
  fun _ => xkk_and_F0FF 0xF#4 x 0x1E#8
theorem Laws.TableRow.ldF (x : Reg) : Statement (.ldF x) :=
  fun _ => xkk_and_F0FF 0xF#4 x 0x29#8
theorem Laws.TableRow.ldB (x : Reg) : Statement (.ldB x) :=
  fun _ => xkk_and_F0FF 0xF#4 x 0x33#8
theorem Laws.TableRow.storeRegs (x : Reg) : Statement (.storeRegs x) :=
  fun _ => xkk_and_F0FF 0xF#4 x 0x55#8
theorem Laws.TableRow.loadRegs (x : Reg) : Statement (.loadRegs x) :=
  fun _ => xkk_and_F0FF 0xF#4 x 0x65#8
theorem Laws.TableRow.nop (w : Word) : Statement (.nop w) := fun h => h

end Sys2Proof
end

