-- ==== Sys2Proof/Laws/Step.lean ====
section
/-! SUPPORT. What a step can do, said once, and what the end of a step leaves. -/

namespace Sys2Proof.Machine

theorem step_of_running {s : State} (h : s.status = .running) : step s = cycle s := by
  simp [step, stepOf, h]

theorem step_of_faulted {s : State} {k : FaultKind} {p : Word} {o : Option Word}
    (h : s.status = .faulted k p o) : step s = .fault (.noStep k p o) := by
  simp [step, stepOf, h]

theorem fetch_ok {s : State} (h : s.pc.toNat ≤ 0xFFE) : fetch s = .ok (s.wordAt s.pc.toNat) := by
  unfold fetch; rw [if_neg (by omega)]

theorem fetch_error {s : State} (h : 0xFFF ≤ s.pc.toNat) : fetch s = .error (.fetchBounds s.pc) := by
  unfold fetch; rw [if_pos (by omega)]

/-- Everything a step that answers a state can do: the machine was running, and the fetch faulted, or the
fetched word was decoded, executed with pc advanced, and the step was finished. -/
theorem step_cases {s s' : State} (h : step s = .next s') :
    s.status = .running ∧
      ((0xFFF ≤ s.pc.toNat ∧ s' = s.takeFault (.fetchBounds s.pc) s.pc none) ∨
        (s.pc.toNat ≤ 0xFFE ∧ ∃ t, exec (decodeWord (s.wordAt s.pc.toNat)) s.advance = .next t ∧
          s' = t.finish)) := by
  cases hs : s.status with
  | faulted k p o => rw [step_of_faulted hs] at h; cases h
  | running =>
    refine ⟨rfl, ?_⟩
    rw [step_of_running hs] at h
    unfold cycle at h
    by_cases hp : s.pc.toNat ≤ 0xFFE
    · rw [fetch_ok hp] at h
      refine .inr ⟨hp, ?_⟩
      simp only at h
      generalize exec (decodeWord (s.wordAt s.pc.toNat)) s.advance = out at h
      cases out with
      | next t => exact ⟨t, rfl, by simpa [finishOutcome] using h.symm⟩
      | fault r => simp [finishOutcome] at h
      | refused r => simp [finishOutcome] at h
    · rw [fetch_error (by omega)] at h
      exact .inl ⟨by omega, by simpa using h.symm⟩

/-! The end of a step -/

theorem State.finish_of_running {s : State} (h : s.status = .running) :
    s.finish = s.tick.nextInput := by
  simp [State.finish, h, RunStatus.isRunning]

theorem State.finish_of_faulted {s : State} {k : FaultKind} {p : Word} {o : Option Word}
    (h : s.status = .faulted k p o) : s.finish = s := by
  simp [State.finish, h, RunStatus.isRunning]

@[simp] theorem State.v_finish (s : State) : s.finish.v = s.v := by unfold State.finish; split <;> rfl
@[simp] theorem State.index_finish (s : State) : s.finish.index = s.index := by
  unfold State.finish; split <;> rfl
@[simp] theorem State.pc_finish (s : State) : s.finish.pc = s.pc := by unfold State.finish; split <;> rfl
@[simp] theorem State.stack_finish (s : State) : s.finish.stack = s.stack := by
  unfold State.finish; split <;> rfl
@[simp] theorem State.sp_finish (s : State) : s.finish.sp = s.sp := by unfold State.finish; split <;> rfl
@[simp] theorem State.mem_finish (s : State) : s.finish.mem = s.mem := by unfold State.finish; split <;> rfl
@[simp] theorem State.fb_finish (s : State) : s.finish.fb = s.fb := by unfold State.finish; split <;> rfl
@[simp] theorem State.status_finish (s : State) : s.finish.status = s.status := by
  unfold State.finish; split <;> rfl
@[simp] theorem State.reg_finish (s : State) (x : Reg) : s.finish.reg x = s.reg x := by
  unfold State.finish; split <;> rfl
@[simp] theorem State.byteAt_finish (s : State) (a : Nat) : s.finish.byteAt a = s.byteAt a := by
  unfold State.finish; split <;> rfl
@[simp] theorem State.pixel_finish (s : State) (c r : Nat) : s.finish.pixel c r = s.pixel c r := by
  unfold State.finish; split <;> rfl
@[simp] theorem State.slot_finish (s : State) (j : Nat) : s.finish.slot j = s.slot j := by
  unfold State.finish; split <;> rfl

/-! Placing a word where it is fetched -/

/-- The placed word is the one fetched. -/
theorem fetch_placeWord {s : State} (hm : s.mem.wf = true) (hp : s.pc.toNat ≤ 0xFFE) (w : Word) :
    fetch (s.placeWord w) = .ok w := by
  have e : s.placeWord w = s.setMem (s.mem.storeBytes s.pc.toNat [firstByte w, secondByte w]) := by
    unfold State.placeWord; rw [if_neg (by omega)]
  have hl : s.pc.toNat + [firstByte w, secondByte w].length ≤ Config.memSize := by
    simp [Config.memSize]; omega
  rw [e, fetch_ok (by simpa using hp)]
  simp only [State.wordAt, State.byteAt, State.mem_setMem, State.pc_setMem,
    Memory.byteAt_storeBytes _ _ hm hl]
  simp

end Sys2Proof.Machine
end

