-- ==== Sys2Proof/Tests/Slice0.lean ====
section
/-! SUPPORT. Tests of the decoder, of one step for each instruction, and of the checks; and, for each statement
of Certificates/Slice0/Obligations.lean that has hypotheses, a witness that meets them together.

Words and expected results are those of 30_encoding.md R73 and of 95_test_vectors.md, whose vector is named. -/

namespace Sys2Proof.Tests

open Sys2Proof.Machine

/-! ## Well-formedness: the one check, on one word of each of its four lists and on words it refuses -/

theorem test_wellFormed_nop : [0x0001, 0x0FFF, 0x8008, 0x800F, 0xE000, 0xF000, 0xFFFF].all
    (fun w => (Instr.nop w).wellFormed) = true := by decide

theorem test_illFormed_nop : [0x00E0, 0x00EE, 0x1234, 0x8006, 0xD015, 0xE19E, 0xF165].any
    (fun w => (Instr.nop w).wellFormed) = false := by decide

/-! ## Decoding: words written bit by bit from the encodings of 30_encoding.md R73 -/

theorem test_decode_family0 :
    decodeWord 0b0000000011100000#16 = .cls 0b00001110#8 ∧
    decodeWord 0b0000000011101110#16 = .ret 0b00001110#8 ∧
    decodeWord 0b0000000100100011#16 = .nop 0x0123#16 := by decide

theorem test_decode_control :
    decodeWord 0b0001101010111100#16 = .jp 0xABC#12 ∧
    decodeWord 0b0010001100000001#16 = .call 0x301#12 ∧
    decodeWord 0b1011010100000010#16 = .jpV0 0x502#12 := by decide

theorem test_decode_skip :
    decodeWord 0b0011000101000010#16 = .seImm 1 0x42 ∧
    decodeWord 0b0100001001000011#16 = .sneImm 2 0x43 ∧
    decodeWord 0b0101000100100011#16 = .seReg 1 2 3 ∧
    decodeWord 0b1001000100101111#16 = .sneReg 1 2 0xF := by decide

theorem test_decode_immediate :
    decodeWord 0b0110101011111110#16 = .ldImm 0xA 0xFE ∧
    decodeWord 0b0111101000000001#16 = .addImm 0xA 0x01 ∧
    decodeWord 0b1100000100001111#16 = .rnd 1 0x0F ∧
    decodeWord 0b1010000100100011#16 = .ldI 0x123 := by decide

theorem test_decode_family8 :
    decodeWord 0b1000101010110000#16 = .ldReg 0xA 0xB ∧
    decodeWord 0b1000000100100001#16 = .or 1 2 ∧
    decodeWord 0b1000000100100010#16 = .and 1 2 ∧
    decodeWord 0b1000000100100011#16 = .xor 1 2 ∧
    decodeWord 0b1000000100100100#16 = .addReg 1 2 ∧
    decodeWord 0b1000000100100101#16 = .sub 1 2 ∧
    decodeWord 0b1000000100100110#16 = .shr 1 2 ∧
    decodeWord 0b1000000100100111#16 = .subn 1 2 ∧
    decodeWord 0b1000000100101110#16 = .shl 1 2 ∧
    decodeWord 0b1000000100101000#16 = .nop 0x8128#16 := by decide

theorem test_decode_drawing :
    decodeWord 0b1101000000010101#16 = .drw 0 1 5 := by decide

theorem test_decode_familyE :
    decodeWord 0b1110000110011110#16 = .skp 1 9 ∧
    decodeWord 0b1110000110100001#16 = .sknp 1 0xA ∧
    decodeWord 0b1110000110011111#16 = .nop 0xE19F#16 := by decide

theorem test_decode_familyF :
    decodeWord 0b1111001000000111#16 = .ldVxDT 2 ∧
    decodeWord 0b1111001000001010#16 = .ldVxK 2 ∧
    decodeWord 0b1111001000010101#16 = .ldDTVx 2 ∧
    decodeWord 0b1111001000011000#16 = .ldSTVx 2 ∧
    decodeWord 0b1111001000011110#16 = .addI 2 ∧
    decodeWord 0b1111001000101001#16 = .ldF 2 ∧
    decodeWord 0b1111001000110011#16 = .ldB 2 ∧
    decodeWord 0b1111001001010101#16 = .storeRegs 2 ∧
    decodeWord 0b1111001001100101#16 = .loadRegs 2 ∧
    decodeWord 0b1111001000110000#16 = .nop 0xF230#16 := by decide

/-- The first byte is the high one (20_memory.md R47), and a lone byte is no instruction. -/
theorem test_decode_bytes :
    decode [0x1A, 0xBC, 0x77] = .ok (.jp 0xABC, [0x77]) ∧ decode [0x1A] = .error .truncated := by decide

/-- The canonical words of the opcode table, in its order. -/
theorem test_decodeTableWord :
    decodeTableWord 16 0x00E0 = some (.cls 0x0E) ∧ decodeTableWord 16 0xF365 = some (.loadRegs 3) := by
  decide

/-! ## One step -/

/-- `p` holds of the state an outcome gives. -/
def after (o : Host.Outcome State Fault Refusal) (p : State → Bool) : Bool :=
  match o with
  | .next t => p t
  | .fault _ => false
  | .refused _ => false

theorem exists_of_after {o : Host.Outcome State Fault Refusal} {p : State → Bool} (h : after o p = true) :
    ∃ t, o = .next t ∧ p t = true := by
  cases o with
  | next t => exact ⟨t, rfl, h⟩
  | fault r => exact absurd h Bool.false_ne_true
  | refused r => exact absurd h Bool.false_ne_true

/-- The reset state with some registers set. -/
def start (rs : List (Reg × Byte)) : State := rs.foldl (fun s r => s.setReg r.1 r.2) State.reset

/-- The reset state with some registers set and some bytes stored at I. -/
def startAt (rs : List (Reg × Byte)) (i : Word) (bytes : List Byte) : State :=
  ((start rs).setIndex i).setMem (State.reset.mem.storeBytes i.toNat bytes)

/-- A snapshot with the keys listed pressed. -/
def keypad (ks : List Nat) : Keys := Vector.ofFn fun k : Fin 16 => ks.contains k.val

/-- The step that executes `w` ends in a state of which `p` holds. -/
def runs (s : State) (w : Nat) (p : State → Bool) : Bool := after (step (s.withFetchWord 16 w)) p

/-- The step that executes `w` takes the fault `k` and leaves pc. -/
def faults (s : State) (w : Nat) (k : FaultKind) : Bool :=
  runs s w fun t => t.status == .faulted k s.pc (some (BitVec.ofNat 16 w)) && t.pc == s.pc

/-- V-CF-1, V-CF-3. -/
theorem test_jp : runs (start []) 0x1ABC (fun t => t.pc == 0xABC) &&
    runs (start []) 0x1201 (fun t => t.pc == 0x201) := by decide

/-- V-CF-4, V-CF-5. -/
theorem test_call : runs (start []) 0x2300 (fun t => t.slot 0 == 0x202 && t.sp == 1 && t.pc == 0x300) &&
    runs { start [] with sp := 15 } 0x2300 (fun t => t.slot 15 == 0x202 && t.sp == 16) := by decide

/-- V-CF-6. -/
theorem test_call_full : faults { start [] with sp := 16 } 0x2300 (.stackOverflow 16) := by decide

/-- V-NULL-5. -/
theorem test_ret : runs ((start []).push 0x234) 0x0FFE (fun t => t.pc == 0x234 && t.sp == 0) := by decide

/-- V-TM-7. -/
theorem test_ret_empty : faults { start [] with dt := 7, st := 2 } 0x00EE (.stackUnderflow 0) &&
    runs { start [] with dt := 7, st := 2 } 0x00EE (fun t => t.dt == 7 && t.st == 2) := by decide

/-- V-CF-10, V-CF-11. -/
theorem test_jpV0 : runs (start [(0, 0xFF)]) 0xBFFF (fun t => t.pc == 0x10FE) &&
    runs (start [(0, 1), (5, 0x40)]) 0xB500 (fun t => t.pc == 0x501) := by decide

/-- V-SK-1, V-SK-2. -/
theorem test_seImm : runs (start [(1, 0x42)]) 0x3142 (fun t => t.pc == 0x204) &&
    runs (start [(1, 0x42)]) 0x3143 (fun t => t.pc == 0x202) := by decide

/-- V-SK-3, V-SK-4. -/
theorem test_sneImm : runs (start [(1, 0x42)]) 0x4142 (fun t => t.pc == 0x202) &&
    runs (start [(1, 0x42)]) 0x4143 (fun t => t.pc == 0x204) := by decide

/-- V-SRC-3, V-NULL-14. -/
theorem test_seReg : runs (start [(1, 7), (2, 7)]) 0x5121 (fun t => t.pc == 0x204) &&
    runs (start [(1, 7), (2, 8)]) 0x5120 (fun t => t.pc == 0x202) := by decide

/-- V-SRC-3, V-NULL-15. -/
theorem test_sneReg : runs (start [(1, 7), (2, 7)]) 0x912F (fun t => t.pc == 0x202) &&
    runs (start [(1, 7), (2, 8)]) 0x9120 (fun t => t.pc == 0x204) := by decide

/-- V-AR-1. -/
theorem test_ldImm : runs (start []) 0x6AFF (fun t => t.reg 0xA == 0xFF) := by decide

/-- V-AR-3, V-AR-4. -/
theorem test_addImm :
    runs (start [(0xA, 0xFF), (0xF, 0x55)]) 0x7A01 (fun t => t.reg 0xA == 0 && t.reg 0xF == 0x55) &&
    runs (start [(0xF, 0xFE)]) 0x7F03 (fun t => t.reg 0xF == 1) := by decide

/-- V-AR-5, V-AR-6. -/
theorem test_ldReg : runs (start [(0xB, 0x12)]) 0x8AB0 (fun t => t.reg 0xA == 0x12) &&
    runs (start [(0xF, 0x77)]) 0x81F0 (fun t => t.reg 1 == 0x77) := by decide

/-- V-AR-7. -/
theorem test_or : runs (start [(1, 0xF0), (2, 0x0F), (0xF, 0x33)]) 0x8121
    (fun t => t.reg 1 == 0xFF && t.reg 0xF == 0x33) := by decide

/-- V-AR-8. -/
theorem test_and : runs (start [(1, 0xF0), (2, 0x3C), (0xF, 0x33)]) 0x8122
    (fun t => t.reg 1 == 0x30 && t.reg 0xF == 0x33) := by decide

/-- V-AR-9, V-AR-10. -/
theorem test_xor : runs (start [(1, 0xFF), (2, 0x0F), (0xF, 0x33)]) 0x8123
    (fun t => t.reg 1 == 0xF0 && t.reg 0xF == 0x33) &&
    runs (start [(1, 0x5A)]) 0x8113 (fun t => t.reg 1 == 0) := by decide

/-- V-AR-12, V-AR-13. -/
theorem test_addReg : runs (start [(1, 0xFF), (2, 1)]) 0x8124 (fun t => t.reg 1 == 0 && t.reg 0xF == 1) &&
    runs (start [(1, 0xFE), (2, 1)]) 0x8124 (fun t => t.reg 1 == 0xFF && t.reg 0xF == 0) := by decide

/-- V-AR-15, V-AR-17: the destination, then the source, is VF. -/
theorem test_addReg_vf : runs (start [(0xF, 0x80), (2, 0x90)]) 0x8F24 (fun t => t.reg 0xF == 1) &&
    runs (start [(1, 1), (0xF, 0xFF)]) 0x81F4 (fun t => t.reg 1 == 0 && t.reg 0xF == 1) := by decide

/-- V-AR-18, V-SRC-8. -/
theorem test_sub : runs (start [(1, 5), (2, 3)]) 0x8125 (fun t => t.reg 1 == 2 && t.reg 0xF == 1) &&
    runs (start [(1, 5), (2, 5)]) 0x8125 (fun t => t.reg 1 == 0 && t.reg 0xF == 0) := by decide

/-- V-AR-19, V-AR-22. -/
theorem test_sub_wraps : runs (start [(1, 3), (2, 5)]) 0x8125 (fun t => t.reg 1 == 0xFE && t.reg 0xF == 0) &&
    runs (start [(1, 5), (0xF, 3)]) 0x81F5 (fun t => t.reg 1 == 2 && t.reg 0xF == 1) := by decide

/-- V-AR-27, V-AR-28. -/
theorem test_shr : runs (start [(1, 5)]) 0x8106 (fun t => t.reg 1 == 2 && t.reg 0xF == 1) &&
    runs (start [(1, 4), (2, 0xFF)]) 0x8126 (fun t => t.reg 1 == 2 && t.reg 0xF == 0) := by decide

/-- V-AR-30, under FLAG_FIRST. -/
theorem test_shr_vf : runs (start [(0xF, 3)]) 0x8F06 (fun t => t.reg 0xF == 0) := by decide

/-- V-AR-23, V-AR-24. -/
theorem test_subn : runs (start [(1, 3), (2, 5)]) 0x8127 (fun t => t.reg 1 == 2 && t.reg 0xF == 1) &&
    runs (start [(1, 5), (2, 3)]) 0x8127 (fun t => t.reg 1 == 0xFE && t.reg 0xF == 0) := by decide

/-- V-AR-26. -/
theorem test_subn_vf : runs (start [(0xF, 3), (2, 5)]) 0x8F27 (fun t => t.reg 0xF == 1) := by decide

/-- V-AR-31, V-AR-32. -/
theorem test_shl : runs (start [(1, 0x81)]) 0x810E (fun t => t.reg 1 == 2 && t.reg 0xF == 1) &&
    runs (start [(1, 0x40)]) 0x810E (fun t => t.reg 1 == 0x80 && t.reg 0xF == 0) := by decide

/-- V-AR-33, under FLAG_FIRST. -/
theorem test_shl_vf : runs (start [(0xF, 0x81)]) 0x8F0E (fun t => t.reg 0xF == 2) := by decide

/-- V-AR-35, V-AR-38. -/
theorem test_rnd :
    runs { start [] with pending := [⟨keypad [], 0xAB⟩] } 0xC10F (fun t => t.reg 1 == 0x0B) &&
    runs { start [] with pending := [⟨keypad [], 0xFF⟩] } 0xCF81 (fun t => t.reg 0xF == 0x81) := by decide

/-- V-MI-1. -/
theorem test_ldI : runs (start []) 0xA123 (fun t => t.index == 0x123) := by decide

/-- V-MI-2, V-MI-3. -/
theorem test_addI :
    runs (startAt [(1, 0x20), (0xF, 0x44)] 0x100 []) 0xF11E (fun t => t.index == 0x120 && t.reg 0xF == 0x44) &&
    runs (startAt [(1, 1)] 0x0FFF []) 0xF11E (fun t => t.index == 0x1000) := by decide

/-- V-MI-4, V-MI-5. -/
theorem test_addI_overflow : faults (startAt [(1, 1)] 0xFFFF []) 0xF11E (.indexOverflow 0x10000) &&
    runs (startAt [(1, 0)] 0xFFFF []) 0xF11E (fun t => t.index == 0xFFFF) := by decide

/-- V-MI-7, V-MI-10. -/
theorem test_ldF : runs (start [(1, 0x0A)]) 0xF129 (fun t => t.index == 0x082) &&
    runs (start [(1, 0xFF)]) 0xF129 (fun t => t.index == 0x54B) := by decide

/-- V-MI-14. -/
theorem test_ldB : runs (startAt [(1, 157)] 0xFFD []) 0xF133
    (fun t => t.byteAt 0xFFD == 1 && t.byteAt 0xFFE == 5 && t.byteAt 0xFFF == 7 && t.index == 0xFFD) := by
  decide

/-- V-MI-15. -/
theorem test_ldB_bounds : faults (startAt [(1, 157)] 0xFFE []) 0xF133 (.memBounds 0x1000) := by decide

/-- V-SRC-7, V-MI-16. -/
theorem test_storeRegs :
    runs (startAt [(0, 0x11), (1, 0x22), (2, 0x33), (3, 0x44)] 0x400 []) 0xF355
      (fun t => t.byteAt 0x400 == 0x11 && t.byteAt 0x403 == 0x44 && t.index == 0x400) &&
    runs (startAt [(0, 0xAA), (1, 0xBB)] 0x400 []) 0xF055
      (fun t => t.byteAt 0x400 == 0xAA && t.byteAt 0x401 == 0) := by decide

/-- V-MI-18, V-MI-19. -/
theorem test_storeRegs_bounds : faults (startAt [] 0xFF1 []) 0xFF55 (.memBounds 0x1000) &&
    faults (startAt [] 0x1000 []) 0xF055 (.memBounds 0x1000) := by decide

/-- V-MI-21. -/
theorem test_loadRegs : runs (startAt [] 0x050 []) 0xF465
    (fun t => t.reg 0 == 0xF0 && t.reg 1 == 0x90 && t.reg 4 == 0xF0 && t.reg 5 == 0) := by decide

/-- V-DR-10. -/
theorem test_cls : runs { start [(0xF, 1)] with fb := State.reset.fb.toggle 0 0 } 0x00E0
    (fun t => !t.pixel 0 0 && t.reg 0xF == 1) := by decide

/-- V-DR-3, V-DR-9. -/
theorem test_drw : runs (startAt [(0, 70), (1, 33)] 0x300 [0x80]) 0xD011
      (fun t => t.pixel 6 1 && t.reg 0xF == 0) &&
    runs { startAt [] 0x300 [0xFF] with fb := State.reset.fb.toggle 3 0 } 0xD011
      (fun t => t.pixel 2 0 && !t.pixel 3 0 && t.pixel 7 0 && !t.pixel 8 0 && t.reg 0xF == 1) := by decide

/-- V-SRC-9, V-DR-6. -/
theorem test_drw_bounds :
    faults (startAt [(0, 60), (0xF, 0x55)] 0x300 [0xFF]) 0xD011 (.framebufferBounds 64 0) &&
    faults (startAt [] 0xFFF [0x80]) 0xD002 (.memBounds 0x1000) := by decide

/-- V-IN-1, V-IN-2. -/
theorem test_skp :
    runs { start [(1, 5)] with pending := [⟨keypad [5], 0⟩] } 0xE19E (fun t => t.pc == 0x204) &&
    runs { start [(1, 5)] with pending := [⟨keypad [], 0⟩] } 0xE19E (fun t => t.pc == 0x202) := by decide

/-- V-IN-5. -/
theorem test_skp_key : faults (start [(1, 0x10)]) 0xE19E (.keyIndex 0x10) := by decide

/-- V-IN-3, V-IN-4. -/
theorem test_sknp :
    runs { start [(1, 5)] with pending := [⟨keypad [], 0⟩] } 0xE1A1 (fun t => t.pc == 0x204) &&
    runs { start [(1, 5)] with pending := [⟨keypad [5], 0⟩] } 0xE1A1 (fun t => t.pc == 0x202) := by decide

/-- V-IN-6. -/
theorem test_sknp_key : faults (start [(1, 0xFF)]) 0xE1A1 (.keyIndex 0xFF) := by decide

/-- V-IN-8. -/
theorem test_ldVxK : runs { start [] with pc := 0x206, pending := [⟨keypad [3, 7], 0⟩] } 0xF20A
    (fun t => t.reg 2 == 3 && t.pc == 0x208) := by decide

/-- V-IN-9. -/
theorem test_ldVxK_wait :
    runs { start [(2, 4)] with pc := 0x206, dt := 2, pending := [⟨keypad [], 0⟩] } 0xF20A
      (fun t => t.reg 2 == 4 && t.pc == 0x206 && t.dt == 1) := by decide

/-- V-TM-1, V-TM-8. -/
theorem test_ldVxDT : runs { start [] with dt := 5 } 0xF107 (fun t => t.reg 1 == 5 && t.dt == 4) &&
    runs { start [] with dt := 0x80 } 0xFF07 (fun t => t.reg 0xF == 0x80 && t.dt == 0x7F) := by decide

/-- V-TM-2, V-TM-3. -/
theorem test_ldDTVx : runs (start [(1, 3)]) 0xF115 (fun t => t.dt == 2) &&
    runs { start [] with dt := 9 } 0xF115 (fun t => t.dt == 0) := by decide

/-- V-TM-4, V-TM-5. -/
theorem test_ldSTVx : runs (start [(1, 0x10)]) 0xF118 (fun t => t.st == 0x0F) &&
    runs (start [(1, 1)]) 0xF118 (fun t => t.st == 0) := by decide

/-- V-NULL-17. -/
theorem test_nop : runs { start [] with dt := 2, st := 1 } 0x0001
    (fun t => t.dt == 1 && t.st == 0 && t.pc == 0x202) := by decide

/-- V-NULL-3: with nothing placed, the word fetched from reset is `CLS`. -/
theorem test_reset_step : after (step State.reset) (fun t => t.pc == 0x202 && t.status == .running) := by
  decide

/-- V-FT-1: pc = 0xFFF at the start of a step; and the last word of memory is fetched (V-CF-12). -/
theorem test_fetch_bounds : after (step { start [] with pc := 0xFFF })
      (fun t => t.status == .faulted (.fetchBounds 0xFFF) 0xFFF none) &&
    runs { start [] with pc := 0xFFE } 0x1FFE (fun t => t.pc == 0xFFE) := by decide

/-- V-MI-22: a stored word is what the next step fetches (20_memory.md R57). -/
theorem test_self_modifying : after (step (startAt [] 0x200 [0x12, 0x34])) (fun t => t.pc == 0x234) := by
  decide

/-- P1's ROM: its first byte is at 0x200, the byte after its last is 0. -/
theorem test_launch : (State.launch [0x60, 0x00, 0x61, 0x05]).any
    (fun s => s.byteAt 0x200 == 0x60 && s.byteAt 0x203 == 0x05 && s.byteAt 0x204 == 0 && s.pc == 0x200) := by
  decide

/-! ## Witnesses

For each statement with hypotheses: the lowest and the highest word of each opcode row it names, and, for each
clause, a state and operands that meet its hypotheses together, at a boundary of its range. -/

/-- The reset state's memory is in canonical form: the premise `MemOk`, met by every state that stores nothing. -/
theorem witness_MemOk (rs : List (Reg × Byte)) (i : Word) : (startAt rs i []).MemOk := rfl

/-! ### Control flow -/

theorem witness_JumpLeavesTheTarget_words :
    0x1000#16 &&& 0xF000#16 = 0x1000#16 ∧
    0x1FFF#16 &&& 0xF000#16 = 0x1000#16 := by decide

theorem witness_CallSavesThePostIncrementPc_words :
    0x2000#16 &&& 0xF000#16 = 0x2000#16 ∧
    0x2FFF#16 &&& 0xF000#16 = 0x2000#16 := by decide

theorem witness_CallSavesThePostIncrementPc_free :
    (start []).sp.val < 16 ∧ ({ start [] with sp := 15 } : State).sp.val < 16 := by decide

theorem witness_CallSavesThePostIncrementPc_full : ({ start [] with sp := 16 } : State).sp.val = 16 := by
  decide

theorem witness_ReturnRestoresTheSavedPc_words :
    0x000E#16 &&& 0xF00F#16 = 0x000E#16 ∧
    0x0FFE#16 &&& 0xF00F#16 = 0x000E#16 := by decide

theorem witness_ReturnRestoresTheSavedPc_used :
    0 < ({ start [] with sp := 1 } : State).sp.val ∧ 0 < ({ start [] with sp := 16 } : State).sp.val := by
  decide

theorem witness_ReturnRestoresTheSavedPc_empty : (start []).sp.val = 0 := by decide

theorem witness_OffsetJumpAddsV0Exactly_words :
    0xB000#16 &&& 0xF000#16 = 0xB000#16 ∧
    0xBFFF#16 &&& 0xF000#16 = 0xB000#16 := by decide

theorem witness_CallThenReturnRoundTrips : ({ start [] with sp := 15 } : State).sp.val < 16 := by decide

/-! ### Skips and arithmetic -/

theorem witness_SkipIfRegisterEqualsImmediate_words :
    0x3000#16 &&& 0xF000#16 = 0x3000#16 ∧
    0x3FFF#16 &&& 0xF000#16 = 0x3000#16 := by decide

theorem witness_SkipIfRegisterDiffersFromImmediate_words :
    0x4000#16 &&& 0xF000#16 = 0x4000#16 ∧
    0x4FFF#16 &&& 0xF000#16 = 0x4000#16 := by decide

theorem witness_SkipIfRegistersEqual_words :
    0x5000#16 &&& 0xF000#16 = 0x5000#16 ∧
    0x5FFF#16 &&& 0xF000#16 = 0x5000#16 := by decide

theorem witness_SkipIfRegistersDiffer_words :
    0x9000#16 &&& 0xF000#16 = 0x9000#16 ∧
    0x9FFF#16 &&& 0xF000#16 = 0x9000#16 := by decide

theorem witness_LoadsCopyTheirSource_words :
    0x6000#16 &&& 0xF000#16 = 0x6000#16 ∧
    0x6FFF#16 &&& 0xF000#16 = 0x6000#16 ∧
    0x8000#16 &&& 0xF00F#16 = 0x8000#16 ∧
    0x8FF0#16 &&& 0xF00F#16 = 0x8000#16 := by decide

theorem witness_AddImmediateWritesNoFlag_words :
    0x7000#16 &&& 0xF000#16 = 0x7000#16 ∧
    0x7FFF#16 &&& 0xF000#16 = 0x7000#16 := by decide

theorem witness_BitwiseOperationsWriteNoFlag_words :
    0x8001#16 &&& 0xF00F#16 = 0x8001#16 ∧
    0x8FF1#16 &&& 0xF00F#16 = 0x8001#16 ∧
    0x8002#16 &&& 0xF00F#16 = 0x8002#16 ∧
    0x8FF2#16 &&& 0xF00F#16 = 0x8002#16 ∧
    0x8003#16 &&& 0xF00F#16 = 0x8003#16 ∧
    0x8FF3#16 &&& 0xF00F#16 = 0x8003#16 := by decide

theorem witness_AddRegistersSetsCarryLast_words :
    0x8004#16 &&& 0xF00F#16 = 0x8004#16 ∧
    0x8FF4#16 &&& 0xF00F#16 = 0x8004#16 := by decide

theorem witness_SubSetsStrictComparisonLast_words :
    0x8005#16 &&& 0xF00F#16 = 0x8005#16 ∧
    0x8FF5#16 &&& 0xF00F#16 = 0x8005#16 := by decide

theorem witness_SubnSetsStrictComparisonLast_words :
    0x8007#16 &&& 0xF00F#16 = 0x8007#16 ∧
    0x8FF7#16 &&& 0xF00F#16 = 0x8007#16 := by decide

theorem witness_ShiftRightMovesBitZeroToVF_words :
    0x8006#16 &&& 0xF00F#16 = 0x8006#16 ∧
    0x8FF6#16 &&& 0xF00F#16 = 0x8006#16 := by decide

theorem witness_ShiftLeftMovesBitSevenToVF_words :
    0x800E#16 &&& 0xF00F#16 = 0x800E#16 ∧
    0x8FFE#16 &&& 0xF00F#16 = 0x800E#16 := by decide

/-- The two cases of the statements of ADD, SUB, SUBN, SHR, SHL and the two orders of a shift. -/
theorem witness_destination_off_and_on_VF : (0xE : Reg) ≠ 0xF#4 ∧ (0xF : Reg) = 0xF#4 := by decide

theorem witness_RandomIsTheDrawMasked_words :
    0xC000#16 &&& 0xF000#16 = 0xC000#16 ∧
    0xCFFF#16 &&& 0xF000#16 = 0xC000#16 := by decide

/-! ### Memory and index -/

theorem witness_LoadIndexImmediate_words :
    0xA000#16 &&& 0xF000#16 = 0xA000#16 ∧
    0xAFFF#16 &&& 0xF000#16 = 0xA000#16 := by decide

theorem witness_AddIndexIsExactOrFaults_words :
    0xF01E#16 &&& 0xF0FF#16 = 0xF01E#16 ∧
    0xFF1E#16 &&& 0xF0FF#16 = 0xF01E#16 := by decide

theorem witness_AddIndexIsExactOrFaults_fits :
    (startAt [(1, 0xFF)] 0xFF00 []).index.toNat + ((startAt [(1, 0xFF)] 0xFF00 []).reg 1).toNat ≤ 0xFFFF := by
  decide

theorem witness_AddIndexIsExactOrFaults_overflow :
    0xFFFF < (startAt [(1, 1)] 0xFFFF []).index.toNat + ((startAt [(1, 1)] 0xFFFF []).reg 1).toNat := by
  decide

theorem witness_GlyphAddressUsesTheWholeRegister_words :
    0xF029#16 &&& 0xF0FF#16 = 0xF029#16 ∧
    0xFF29#16 &&& 0xF0FF#16 = 0xF029#16 := by decide

theorem witness_DecimalDigitsAreStoredAtIndex_words :
    0xF033#16 &&& 0xF0FF#16 = 0xF033#16 ∧
    0xFF33#16 &&& 0xF0FF#16 = 0xF033#16 := by decide

theorem witness_DecimalDigitsAreStoredAtIndex_fits :
    (startAt [] 0xFFD []).MemOk ∧ (startAt [] 0xFFD []).index.toNat + 2 ≤ 0xFFF :=
  ⟨witness_MemOk _ _, by decide⟩

theorem witness_DecimalDigitsAreStoredAtIndex_bounds :
    (startAt [] 0xFFE []).MemOk ∧ FirstOutOfRange (startAt [] 0xFFE []).index.toNat 2 0x1000 ∧
      FirstOutOfRange (startAt [] 0x1000 []).index.toNat 2 0x1000 :=
  ⟨witness_MemOk _ _, ⟨by decide, by decide, by decide, fun _ _ h => Nat.le_of_lt_succ h⟩,
    ⟨by decide, by decide, by decide, fun _ _ h => Nat.le_of_lt_succ h⟩⟩

theorem witness_RegisterBlockIsStoredAtIndex_words :
    0xF055#16 &&& 0xF0FF#16 = 0xF055#16 ∧
    0xFF55#16 &&& 0xF0FF#16 = 0xF055#16 := by decide

theorem witness_RegisterBlockIsStoredAtIndex_fits :
    (startAt [] 0xFF0 []).MemOk ∧ (startAt [] 0xFF0 []).index.toNat + (0xF : Reg).toNat ≤ 0xFFF :=
  ⟨witness_MemOk _ _, by decide⟩

theorem witness_RegisterBlockIsStoredAtIndex_bounds :
    (startAt [] 0xFF1 []).MemOk ∧ FirstOutOfRange (startAt [] 0xFF1 []).index.toNat (0xF : Reg).toNat 0x1000 :=
  ⟨witness_MemOk _ _, by decide, by decide, by decide, fun _ _ h => Nat.le_of_lt_succ h⟩

theorem witness_RegisterBlockIsLoadedFromIndex_words :
    0xF065#16 &&& 0xF0FF#16 = 0xF065#16 ∧
    0xFF65#16 &&& 0xF0FF#16 = 0xF065#16 := by decide

theorem witness_RegisterBlockIsLoadedFromIndex_fits :
    (startAt [] 0xFFF []).index.toNat + (0 : Reg).toNat ≤ 0xFFF := by decide

theorem witness_RegisterBlockIsLoadedFromIndex_bounds :
    FirstOutOfRange (startAt [] 0x1000 []).index.toNat (0 : Reg).toNat 0x1000 :=
  ⟨by decide, by decide, by decide, fun _ _ h => Nat.le_of_lt_succ h⟩

/-- The state after the store is itself one with that memory and that I. -/
theorem witness_StoredBlockLoadsBack :
    (startAt [] 0xFF0 []).MemOk ∧ (startAt [] 0xFF0 []).index.toNat + (0xF : Reg).toNat ≤ 0xFFF ∧
      ∃ t u : State, exec (.storeRegs 0xF) (startAt [] 0xFF0 []) = .next t ∧ u.mem = t.mem ∧
        u.index = t.index :=
  ⟨witness_MemOk _ _, by decide, _, _, rfl, rfl, rfl⟩

/-! ### Drawing -/

theorem witness_ClearTurnsEveryPixelOff_words :
    0x0000#16 &&& 0xF00F#16 = 0x0000#16 ∧
    0x0FF0#16 &&& 0xF00F#16 = 0x0000#16 := by decide

theorem witness_DrawXorsTheSprite_words :
    0xD000#16 &&& 0xF000#16 = 0xD000#16 ∧
    0xDFFF#16 &&& 0xF000#16 = 0xD000#16 := by decide

/-- V-SRC-9's second half: a sprite that ends at column 63. -/
def edgeSprite : State := startAt [(0, 60)] 0x300 [0xF0]

theorem spriteFits_edgeSprite : SpriteFits edgeSprite 0 1 1 := by
  intro row hrow
  obtain rfl : row = 0 := Nat.lt_one_iff.mp hrow
  refine ⟨by decide, fun col h => ?_⟩
  obtain ⟨hcol, hset⟩ := h
  revert col
  decide

/-- No pixel under the sprite is on. -/
theorem witness_DrawXorsTheSprite_clear : SpriteFits edgeSprite 0 1 1 ∧ SpriteCovers edgeSprite 0 1 1 63 0 ∧
    ¬∃ c r, SpriteCovers edgeSprite 0 1 1 c r ∧ edgeSprite.pixel c r = true :=
  ⟨spriteFits_edgeSprite, ⟨0, 3, by decide, ⟨by decide, by decide⟩, by decide, by decide⟩,
    fun ⟨c, r, _, h⟩ => absurd h (by rw [show edgeSprite.pixel c r = false from Screen.pixel_clear c r]; decide)⟩

/-- The same sprite over a pixel that is on. -/
def hitSprite : State := { edgeSprite with fb := edgeSprite.fb.toggle 63 0 }

theorem witness_DrawXorsTheSprite_hit : SpriteFits hitSprite 0 1 1 ∧
    ∃ c r, SpriteCovers hitSprite 0 1 1 c r ∧ hitSprite.pixel c r = true :=
  ⟨spriteFits_edgeSprite, 63, 0, ⟨0, 3, by decide, ⟨by decide, by decide⟩, by decide, by decide⟩, by decide⟩

/-- V-DR-6: row 0 fits, and the address of row 1 is 0x1000. -/
theorem witness_DrawFaultsOnTheFirstBadRow_address :
    1 < (2 : BitVec 4).toNat ∧ (∀ r, r < 1 → RowFits (startAt [] 0xFFF [0x80]) 0 0 r) ∧
      0xFFF < (startAt [] 0xFFF [0x80]).index.toNat + 1 := by
  refine ⟨by decide, fun r hr => ?_, by decide⟩
  obtain rfl : r = 0 := Nat.lt_one_iff.mp hr
  refine ⟨by decide, fun col h => ?_⟩
  obtain ⟨hcol, hset⟩ := h
  revert col
  decide

/-- V-DR-12: the one set bit of row 0, bit 0, falls on column 64. -/
theorem witness_DrawFaultsOnTheFirstBadRow_pixel :
    0 < (1 : BitVec 4).toNat ∧ (startAt [(0, 57)] 0x300 [0x01]).index.toNat + 0 ≤ 0xFFF ∧
      SpriteSet (startAt [(0, 57)] 0x300 [0x01]) 0 7 ∧
      63 < SpriteColumn (startAt [(0, 57)] 0x300 [0x01]) 0 7 ∧
      ∀ c, c < 7 → SpriteSet (startAt [(0, 57)] 0x300 [0x01]) 0 c →
        SpriteColumn (startAt [(0, 57)] 0x300 [0x01]) 0 c ≤ 63 := by
  refine ⟨by decide, by decide, ⟨by decide, by decide⟩, by decide, fun c hc h => ?_⟩
  obtain ⟨_, hset⟩ := h
  revert c
  decide

/-- The state after the first draw is itself one that the second draw can start from. -/
theorem witness_DrawingTwiceRestoresTheScreen : SpriteFits edgeSprite 0 1 1 ∧
    ∃ t, exec (.drw 0 1 1) edgeSprite = .next t ∧
      (t.mem == edgeSprite.mem && t.index == edgeSprite.index && t.reg 0 == edgeSprite.reg 0 &&
        t.reg 1 == edgeSprite.reg 1) = true :=
  ⟨spriteFits_edgeSprite, exists_of_after (by decide)⟩

/-! ### Input and NOP -/

theorem witness_SkipIfKeyPressed_words :
    0xE00E#16 &&& 0xF00F#16 = 0xE00E#16 ∧
    0xEFFE#16 &&& 0xF00F#16 = 0xE00E#16 := by decide

theorem witness_SkipIfKeyPressed_key : ((start [(1, 15)]).reg 1).toNat < 16 := by decide

theorem witness_SkipIfKeyPressed_fault : 16 ≤ ((start [(1, 16)]).reg 1).toNat := by decide

theorem witness_SkipIfKeyNotPressed_words :
    0xE001#16 &&& 0xF00F#16 = 0xE001#16 ∧
    0xEFF1#16 &&& 0xF00F#16 = 0xE001#16 := by decide

theorem witness_SkipIfKeyNotPressed_key : ((start [(1, 15)]).reg 1).toNat < 16 := by decide

theorem witness_SkipIfKeyNotPressed_fault : 16 ≤ ((start [(1, 16)]).reg 1).toNat := by decide

theorem witness_KeyWaitTakesTheLowestKey_words :
    0xF00A#16 &&& 0xF0FF#16 = 0xF00A#16 ∧
    0xFF0A#16 &&& 0xF0FF#16 = 0xF00A#16 := by decide

theorem witness_KeyWaitTakesTheLowestKey_pressed :
    ({ start [] with pending := [⟨keypad [3, 7], 0⟩] } : State).input.keys[(3 : Fin 16)] = true ∧
      ∀ j : Fin 16, j < 3 →
        ({ start [] with pending := [⟨keypad [3, 7], 0⟩] } : State).input.keys[j] = false := by decide

theorem witness_KeyWaitTakesTheLowestKey_none :
    ∀ k : Fin 16, ({ start [] with pending := [⟨keypad [], 0⟩] } : State).input.keys[k] = false := by decide

theorem witness_ReadDelayTimer_words :
    0xF007#16 &&& 0xF0FF#16 = 0xF007#16 ∧
    0xFF07#16 &&& 0xF0FF#16 = 0xF007#16 := by decide

theorem witness_SetDelayTimer_words :
    0xF015#16 &&& 0xF0FF#16 = 0xF015#16 ∧
    0xFF15#16 &&& 0xF0FF#16 = 0xF015#16 := by decide

theorem witness_SetSoundTimer_words :
    0xF018#16 &&& 0xF0FF#16 = 0xF018#16 ∧
    0xFF18#16 &&& 0xF0FF#16 = 0xF018#16 := by decide

/-- The word 0x8128 at 0x200, and `LD V1, K` there with no key pressed. -/
theorem witness_UnassignedWordsDoNothing : (State.reset.withFetchWord 16 0x8128).status = .running ∧
    (State.reset.withFetchWord 16 0x8128).pc.toNat ≤ 0xFFE ∧
    decodeWord ((State.reset.withFetchWord 16 0x8128).byteAt 0x200 ++
      (State.reset.withFetchWord 16 0x8128).byteAt 0x201) = .nop 0x8128 := by decide

theorem witness_KeyWaitTakesTheLowestKey_step :
    ({ start [] with pending := [⟨keypad [], 0⟩] } : State).status = .running ∧
    decodeWord ((({ start [] with pending := [⟨keypad [], 0⟩] } : State).withFetchWord 16 0xF10A).byteAt 0x200 ++
      (({ start [] with pending := [⟨keypad [], 0⟩] } : State).withFetchWord 16 0xF10A).byteAt 0x201) =
        .ldVxK 1 ∧
    ∀ k : Fin 16,
      (({ start [] with pending := [⟨keypad [], 0⟩] } : State).withFetchWord 16 0xF10A).input.keys[k] = false := by
  decide

/-! ### Encoding and the step -/

theorem witness_DecodeInvertsEncode : (Instr.nop 0x8008).WellFormed ∧ (Instr.drw 0xF 0xF 0xF).WellFormed := by
  decide

/-- A state whose last fetchable word is `JP 0xFFE`. -/
def lastWord : State := ({ start [] with pc := 0xFFE } : State).withFetchWord 16 0x1FFE

theorem witness_StepExecutesTheDecodedInstruction : lastWord.status = .running ∧ lastWord.pc.toNat ≤ 0xFFE ∧
    decode [lastWord.byteAt lastWord.pc.toNat, lastWord.byteAt (lastWord.pc.toNat + 1)] =
      .ok (.jp 0xFFE, []) ∧
    ∃ t, exec (.jp 0xFFE) { lastWord with pc := lastWord.pc + 2 } = .next t :=
  ⟨rfl, by decide, by decide, _, rfl⟩

theorem witness_StepTicksEachTimerOnce : lastWord.status = .running ∧ lastWord.pc.toNat ≤ 0xFFE ∧
    (∃ t, exec (decodeWord (lastWord.byteAt lastWord.pc.toNat ++ lastWord.byteAt (lastWord.pc.toNat + 1)))
      { lastWord with pc := lastWord.pc + 2 } = .next t ∧ (t.pc == 0xFFE) = true) ∧
    ∃ t', step lastWord = .next t' ∧ (t'.status == .running) = true :=
  ⟨rfl, by decide, exists_of_after (by decide), exists_of_after (by decide)⟩

theorem witness_ReadDelayTimer_step : (State.reset.withFetchWord 16 0xF107).status = .running ∧
    (State.reset.withFetchWord 16 0xF107).pc.toNat ≤ 0xFFE ∧
    decodeWord ((State.reset.withFetchWord 16 0xF107).byteAt 0x200 ++
      (State.reset.withFetchWord 16 0xF107).byteAt 0x201) = .ldVxDT 1 := by decide

theorem witness_SetDelayTimer_step : (State.reset.withFetchWord 16 0xF115).status = .running ∧
    (State.reset.withFetchWord 16 0xF115).pc.toNat ≤ 0xFFE ∧
    decodeWord ((State.reset.withFetchWord 16 0xF115).byteAt 0x200 ++
      (State.reset.withFetchWord 16 0xF115).byteAt 0x201) = .ldDTVx 1 := by decide

theorem witness_SetSoundTimer_step : (State.reset.withFetchWord 16 0xF118).status = .running ∧
    (State.reset.withFetchWord 16 0xF118).pc.toNat ≤ 0xFFE ∧
    decodeWord ((State.reset.withFetchWord 16 0xF118).byteAt 0x200 ++
      (State.reset.withFetchWord 16 0xF118).byteAt 0x201) = .ldSTVx 1 := by decide

theorem witness_FetchPastMemoryFaults : ({ start [] with pc := 0xFFF } : State).status = .running ∧
    0xFFF ≤ ({ start [] with pc := 0xFFF } : State).pc.toNat := by decide

theorem witness_FaultedStateHasNoStep :
    ((start []).takeFault (.stackUnderflow 0) 0x200 (some 0x00EE)).status =
      .faulted (.stackUnderflow 0) 0x200 (some 0x00EE) := rfl

theorem witness_NoInstructionRefusesOrBlocks : State.reset.status = .running := rfl

/-- V-CF-8, and the fetch fault of V-FT-1. -/
theorem witness_FaultingStepChangesOnlyTheStatus :
    (∃ t, step (State.reset.withFetchWord 16 0x00EE) = .next t ∧ (!t.status.isRunning) = true) ∧
    ∃ t, step { start [] with pc := 0xFFF } = .next t ∧ (!t.status.isRunning) = true :=
  ⟨exists_of_after (by decide), exists_of_after (by decide)⟩

/-- A step that stores to the last byte of memory. -/
theorem witness_MemoryStaysCanonical :
    (((start [(0, 7)]).setIndex 0xFFF).withFetchWord 16 0xF055).MemOk ∧
    ∃ t, step (((start [(0, 7)]).setIndex 0xFFF).withFetchWord 16 0xF055) = .next t ∧
      (t.byteAt 0xFFF == 7) = true :=
  ⟨rfl, exists_of_after (by decide)⟩

/-- V-CF-10: the bound is reached. -/
theorem witness_PcNeverExceedsItsBound : ((start [(0, 0xFF)]).withFetchWord 16 0xBFFF).PcOk ∧
    ∃ t, step ((start [(0, 0xFF)]).withFetchWord 16 0xBFFF) = .next t ∧ (t.pc == 0x10FE) = true :=
  ⟨⟨by decide, fun j hj => absurd hj (Nat.not_lt_zero j)⟩, exists_of_after (by decide)⟩

theorem witness_LaunchPlacesTheRom : (List.replicate 3584 (0x00 : Byte)).length ≤ 3584 ∧
    3584 < (List.replicate 3585 (0x00 : Byte)).length := by
  rw [List.length_replicate, List.length_replicate]; decide

/-! ### Whole-machine rules -/

/-- Every instruction answers a state, `CLS`, `DRW` and one that is neither. -/
theorem witness_OnlyClearAndDrawWriteTheScreen :
    (∃ t, exec (.cls 0) edgeSprite = .next t) ∧ (∃ t, exec (.nop 1) edgeSprite = .next t) ∧
    ∃ t, exec (.drw 0 1 1) edgeSprite = .next t ∧ (t.pixel 63 0 != edgeSprite.pixel 63 0) = true :=
  ⟨⟨_, rfl⟩, ⟨_, rfl⟩, exists_of_after (by decide)⟩

theorem witness_OnlyListedRegistersAreWritten : ∃ t, exec (.ldImm 1 7) State.reset = .next t := ⟨_, rfl⟩

theorem witness_OnlyIndexInstructionsWriteIndex : (∃ t, exec (.ldImm 1 7) State.reset = .next t) ∧
    (∀ nnn, Instr.ldImm 1 7 ≠ .ldI nnn) ∧ (∀ x, Instr.ldImm 1 7 ≠ .addI x) ∧ ∀ x, Instr.ldImm 1 7 ≠ .ldF x :=
  ⟨⟨_, rfl⟩, fun _ h => Instr.noConfusion h, fun _ h => Instr.noConfusion h, fun _ h => Instr.noConfusion h⟩

theorem witness_StackTimersAndMemoryHaveTheirOwnWriters :
    (∃ t, exec (.ldImm 1 7) State.reset = .next t) ∧
    (∀ nnn, Instr.ldImm 1 7 ≠ .call nnn) ∧ (∀ d, Instr.ldImm 1 7 ≠ .ret d) ∧
    (∀ x, Instr.ldImm 1 7 ≠ .ldDTVx x) ∧ (∀ x, Instr.ldImm 1 7 ≠ .ldSTVx x) ∧
    (∀ x, Instr.ldImm 1 7 ≠ .ldB x) ∧ ∀ x, Instr.ldImm 1 7 ≠ .storeRegs x :=
  ⟨⟨_, rfl⟩, fun _ h => Instr.noConfusion h, fun _ h => Instr.noConfusion h, fun _ h => Instr.noConfusion h,
    fun _ h => Instr.noConfusion h, fun _ h => Instr.noConfusion h, fun _ h => Instr.noConfusion h⟩

theorem witness_TimersAreReadByOneInstruction : (∃ t, exec (.ldVxDT 1) State.reset = .next t) ∧
    (∃ t, exec (.ldImm 1 7) State.reset = .next t) ∧ ∀ x, Instr.ldImm 1 7 ≠ .ldVxDT x :=
  ⟨⟨_, rfl⟩, ⟨_, rfl⟩, fun _ h => Instr.noConfusion h⟩

/-- Two reset states that differ in a free slot. -/
theorem witness_FreeStackSlotsAreUnobservable :
    SameButFreeSlots State.reset { State.reset with stack := State.reset.stack.set 3 0x234 } ∧
    State.reset.stack ≠ State.reset.stack.set 3 0x234 ∧
    ∃ t, step State.reset = .next t ∧ (t.pc == 0x202) = true :=
  ⟨⟨rfl, fun j hj => absurd hj (Nat.not_lt_zero j)⟩, by decide, exists_of_after (by decide)⟩

/-- Two states whose named inputs differ after the first, and a step that draws; and two whose draws differ,
and a step that does not. -/
theorem witness_StepDependsOnTheHostThroughItsInputsOnly :
    (SameButInputs { State.reset with pending := [⟨keypad [1], 5⟩] }
        { State.reset with pending := [⟨keypad [1], 5⟩, ⟨keypad [], 9⟩] } ∧
      ({ State.reset with pending := [⟨keypad [1], 5⟩, ⟨keypad [], 9⟩] } : State).input.keys =
        ({ State.reset with pending := [⟨keypad [1], 5⟩] } : State).input.keys ∧
      ({ State.reset with pending := [⟨keypad [1], 5⟩, ⟨keypad [], 9⟩] } : State).input.draw =
        ({ State.reset with pending := [⟨keypad [1], 5⟩] } : State).input.draw) ∧
    (∀ x kk, decodeWord (State.reset.byteAt 0x200 ++ State.reset.byteAt 0x201) ≠ .rnd x kk) ∧
    ∃ t, step { State.reset with pending := [⟨keypad [1], 5⟩] } = .next t ∧ (t.pc == 0x202) = true :=
  ⟨⟨rfl, rfl, rfl⟩, fun _ _ h => Instr.noConfusion (h : Instr.cls 0 = _), exists_of_after (by decide)⟩

/-- V-CF-2. -/
theorem witness_JumpLeavesTheTarget_loop : (State.reset.withFetchWord 16 0x1200).status = .running ∧
    (State.reset.withFetchWord 16 0x1200).pc.toNat ≤ 0xFFE ∧
    (0x200 : Addr12).toNat = (State.reset.withFetchWord 16 0x1200).pc.toNat ∧
    decodeWord ((State.reset.withFetchWord 16 0x1200).byteAt 0x200 ++
      (State.reset.withFetchWord 16 0x1200).byteAt 0x201) = .jp 0x200 := by decide


end Sys2Proof.Tests
end

/-! What the framebuffer has to do with the execute phase (10_state.md R36): every instruction but `CLS` and
`DRW` commutes with replacing it, so none of them reads or writes it. -/

namespace Sys2Proof.Machine

theorem State.push_setFb (s : State) (fb : Screen) (a : Word) :
    (s.setFb fb).push a = (s.push a).setFb fb := by
  unfold State.push
  rw [apply_dite (State.setFb · fb)]
  rfl

/-- A check that does not look at the framebuffer finds the same fault on any. -/
theorem checked_setFb {i : Instr} {s t t' : State} {check : Option FaultKind} (fb : Screen)
    (h : checked i s check t = .next t') :
    checked i (s.setFb fb) check (t.setFb fb) = .next (t'.setFb fb) := by
  obtain ⟨rfl, rfl⟩ | ⟨k, rfl, rfl⟩ := checked_cases h <;> rfl

/-- Every instruction but `CLS` and `DRW` does the same on any framebuffer, which it carries along. -/
theorem exec_setFb {i : Instr} {s t : State} (fb : Screen) (hcls : ∀ d, i ≠ .cls d)
    (hdrw : ∀ x y n, i ≠ .drw x y n) (h : exec i s = .next t) :
    exec i (s.setFb fb) = .next (t.setFb fb) := by
  cases i with
  | cls d => exact absurd rfl (hcls d)
  | drw x y n => exact absurd rfl (hdrw x y n)
  | call nnn =>
    have hcall : checked (.call nnn) (s.setFb fb) _ (((s.push s.pc).setFb fb).setPc (address nnn)) = _ :=
      checked_setFb fb h
    rwa [← State.push_setFb] at hcall
  | ret _ | skp _ _ | sknp _ _ | addI _ | ldB _ | storeRegs _ | loadRegs _ => exact checked_setFb fb h
  | _ => cases h; rfl

/-- No instruction but `CLS` and `DRW` writes the framebuffer: `exec_setFb` at the framebuffer the state has
already. -/
theorem fb_of_exec {i : Instr} {s t : State} (hcls : ∀ d, i ≠ .cls d) (hdrw : ∀ x y n, i ≠ .drw x y n)
    (h : exec i s = .next t) : t.fb = s.fb := by
  have hsame : t = t.setFb s.fb := Host.Outcome.next.inj (h.symm.trans (exec_setFb s.fb hcls hdrw h))
  calc
    t.fb = (t.setFb s.fb).fb := congrArg State.fb hsame
    _ = s.fb := rfl

theorem exec_cls (d : BitVec 8) (s : State) : exec (.cls d) s = .next (s.setFb Screen.clear) := rfl

/-- `DRW` alone reads the framebuffer. -/
theorem exec_setFb_of_ne_drw {i : Instr} {s t : State} (fb : Screen) (hdrw : ∀ x y n, i ≠ .drw x y n)
    (h : exec i s = .next t) : ∃ fb', exec i (s.setFb fb) = .next (t.setFb fb') := by
  by_cases hcls : ∃ d, i = .cls d
  · obtain ⟨d, rfl⟩ := hcls
    cases h
    exact ⟨Screen.clear, exec_cls d (s.setFb fb)⟩
  · exact ⟨fb, exec_setFb fb (not_exists.mp hcls) hdrw h⟩

/-- The check phase of `DRW` looks at the registers, I and memory, so on another framebuffer `DRW` faults alike
or draws alike, and of the rest VF alone may come out different. -/
theorem exec_drw_setFb {x y : Reg} {n : BitVec 4} {s t : State} (fb : Screen)
    (h : exec (.drw x y n) s = .next t) :
    ∃ u, exec (.drw x y n) (s.setFb fb) = .next u ∧ u = { t with v := u.v, fb := u.fb } ∧
      SameRegsBut [vf] t u := by
  obtain ⟨hfits, rfl⟩ | ⟨k, hk, rfl⟩ := checked_cases h
  · refine ⟨_, congrArg (checked _ (s.setFb fb) · _) hfits, rfl, fun z hz => ?_⟩
    have hz' : z ≠ vf := by simpa using hz
    simp [State.reg_setFlag_other _ _ hz']
  · exact ⟨_, congrArg (checked _ (s.setFb fb) · _) hk, rfl, fun _ _ => rfl⟩

/-- `DRW` turns over only pixels under a set sprite bit: a drawn sprite lies on the screen, and a fault draws
nothing. -/
theorem spriteCovers_of_exec_drw {x y : Reg} {n : BitVec 4} {s t : State} {c r : Nat}
    (h : exec (.drw x y n) s = .next t) (hne : t.pixel c r ≠ s.pixel c r) : SpriteCovers s x y n c r := by
  rw [spriteCovers_iff]
  obtain ⟨hfits, rfl⟩ | ⟨k, -, rfl⟩ := checked_cases h
  · by_contra hout
    have hpixel := pixel_drawPixels s.fb (s.nodup_spritePixels _ _) (State.onScreen_of_checkSprite hfits) c r
    exact hne (hpixel.trans (if_neg hout))
  · exact absurd rfl hne

/-- Settles O53: all but `DRW` commute with replacing the framebuffer, up to what `CLS` leaves there; `DRW` is
taken apart by its check phase. -/
theorem onlyClearAndDrawWriteTheScreen : Obligations.OnlyClearAndDrawWriteTheScreen := by
  intro i s t h
  refine ⟨fun hcls hdrw c r => ?_, ?_, ?_, fun fb => ?_⟩
  · exact congrArg (Screen.pixel · c r) (fb_of_exec hcls hdrw h)
  · rintro ⟨d, rfl⟩ c r
    cases h
    exact Screen.pixel_clear c r
  · rintro x y n rfl c r hne
    exact spriteCovers_of_exec_drw h hne
  · by_cases hdrw : ∃ x y n, i = .drw x y n
    · obtain ⟨x, y, n, rfl⟩ := hdrw
      obtain ⟨u, hu, hrest, hregs⟩ := exec_drw_setFb fb h
      exact ⟨u, hu, hrest, fun _ => hregs, fun hne => absurd rfl (hne x y n)⟩
    · obtain ⟨fb', hu⟩ := exec_setFb_of_ne_drw fb (fun x y n e => hdrw ⟨x, y, n, e⟩) h
      exact ⟨_, hu, rfl, fun hex => absurd hex hdrw, fun _ _ _ => rfl⟩

end Sys2Proof.Machine

/-! What the timers have to do with the execute phase (40_cycle.md R96): every instruction but the three that
name a timer commutes with replacing both, so none of them reads or writes DT or ST. -/

namespace Sys2Proof.Machine

theorem State.push_setDt_setSt (s : State) (dt st : Byte) (a : Word) :
    ((s.setDt dt).setSt st).push a = ((s.push a).setDt dt).setSt st := by
  unfold State.push
  rw [apply_dite (fun u : State => (u.setDt dt).setSt st)]
  rfl

/-- A check that does not look at the timers finds the same fault on any. -/
theorem checked_setDt_setSt {i : Instr} {s t t' : State} {check : Option FaultKind} (dt st : Byte)
    (h : checked i s check t = .next t') :
    checked i ((s.setDt dt).setSt st) check ((t.setDt dt).setSt st) = .next ((t'.setDt dt).setSt st) := by
  obtain ⟨rfl, rfl⟩ | ⟨k, rfl, rfl⟩ := checked_cases h <;> rfl

/-- Every instruction that names no timer does the same on any timers, which it carries along. -/
theorem exec_setDt_setSt {i : Instr} {s t : State} (dt st : Byte) (hread : ∀ x, i ≠ .ldVxDT x)
    (hdt : ∀ x, i ≠ .ldDTVx x) (hst : ∀ x, i ≠ .ldSTVx x) (h : exec i s = .next t) :
    exec i ((s.setDt dt).setSt st) = .next ((t.setDt dt).setSt st) := by
  cases i with
  | ldVxDT x => exact absurd rfl (hread x)
  | ldDTVx x => exact absurd rfl (hdt x)
  | ldSTVx x => exact absurd rfl (hst x)
  | call nnn =>
    have hcall : checked (.call nnn) ((s.setDt dt).setSt st) _
      ((((s.push s.pc).setDt dt).setSt st).setPc (address nnn)) = _ := checked_setDt_setSt dt st h
    rwa [← State.push_setDt_setSt] at hcall
  | ret _ | drw _ _ _ | skp _ _ | sknp _ _ | addI _ | ldB _ | storeRegs _ | loadRegs _ =>
    exact checked_setDt_setSt dt st h
  | _ => cases h; rfl

/-- No instruction but the three that name a timer writes one: `exec_setDt_setSt` at the timers the state has
already. -/
theorem timers_of_exec {i : Instr} {s t : State} (hread : ∀ x, i ≠ .ldVxDT x) (hdt : ∀ x, i ≠ .ldDTVx x)
    (hst : ∀ x, i ≠ .ldSTVx x) (h : exec i s = .next t) : t.dt = s.dt ∧ t.st = s.st := by
  have hsame : t = (t.setDt s.dt).setSt s.st :=
    Host.Outcome.next.inj (h.symm.trans (exec_setDt_setSt s.dt s.st hread hdt hst h))
  exact ⟨(congrArg State.dt hsame :), (congrArg State.st hsame :)⟩

/-- An instruction that does not read DT does the same on any timers, up to the timers it leaves. -/
theorem exec_setDt_setSt_of_ne_ldVxDT {i : Instr} {s t : State} (dt st : Byte)
    (hread : ∀ x, i ≠ .ldVxDT x) (h : exec i s = .next t) :
    ∃ dt' st', exec i ((s.setDt dt).setSt st) = .next ((t.setDt dt').setSt st') := by
  by_cases hdt : ∃ x, i = .ldDTVx x
  · obtain ⟨x, rfl⟩ := hdt
    cases h
    exact ⟨s.reg x, st, rfl⟩
  by_cases hst : ∃ x, i = .ldSTVx x
  · obtain ⟨x, rfl⟩ := hst
    cases h
    exact ⟨dt, s.reg x, rfl⟩
  · exact ⟨dt, st, exec_setDt_setSt dt st hread (not_exists.mp hdt) (not_exists.mp hst) h⟩

/-- Every instruction does the same on any ST, up to the ST it leaves. -/
theorem exec_setSt {i : Instr} {s t : State} (st : Byte) (h : exec i s = .next t) :
    ∃ st', exec i (s.setSt st) = .next (t.setSt st') := by
  by_cases hread : ∃ x, i = .ldVxDT x
  · obtain ⟨x, rfl⟩ := hread
    cases h
    exact ⟨st, rfl⟩
  by_cases hdt : ∃ x, i = .ldDTVx x
  · obtain ⟨x, rfl⟩ := hdt
    cases h
    exact ⟨st, rfl⟩
  by_cases hst : ∃ x, i = .ldSTVx x
  · obtain ⟨x, rfl⟩ := hst
    cases h
    exact ⟨s.reg x, rfl⟩
  · rw [not_exists] at hread hdt hst
    obtain ⟨hsame, -⟩ := timers_of_exec hread hdt hst h
    refine ⟨st, ?_⟩
    calc
      exec i (s.setSt st) = .next ((t.setDt s.dt).setSt st) := exec_setDt_setSt s.dt st hread hdt hst h
      _ = .next (t.setSt st) := by rw [← hsame]; rfl

/-- Settles O57: an instruction that does not read DT commutes with replacing both timers, and every
instruction with replacing ST, up to the timers they leave. -/
theorem timersAreReadByOneInstruction : Obligations.TimersAreReadByOneInstruction := by
  intro i s t dt st h
  refine ⟨fun hread => ?_, ?_⟩
  · obtain ⟨dt', st', hu⟩ := exec_setDt_setSt_of_ne_ldVxDT dt st hread h
    exact ⟨_, hu, rfl⟩
  · obtain ⟨st', hu⟩ := exec_setSt st h
    exact ⟨_, hu, rfl⟩

/-- A step that leaves the machine running ends what execute answered with the tick, then uses up the step's
inputs (40_cycle.md R91). -/
theorem eq_tick_nextInput_of_step {s t t' : State} (hp : s.pc.toNat ≤ 0xFFE)
    (hexec : exec (decodeWord (s.wordAt s.pc.toNat)) s.advance = .next t) (hstep : step s = .next t')
    (hrun : t'.status = .running) : t' = t.tick.nextInput := by
  obtain ⟨-, ⟨hpc, -⟩ | ⟨-, u, hu, rfl⟩⟩ := step_cases hstep
  · omega
  · obtain rfl : t = u := Host.Outcome.next.inj (hexec.symm.trans hu)
    exact State.finish_of_running (by simpa using hrun)

/-- Settles O43: the end of a step that did not fault is the tick of the state execute left. -/
theorem stepTicksEachTimerOnce : Obligations.StepTicksEachTimerOnce := by
  intro s t t' _ hp hexec hstep hrun
  obtain rfl := eq_tick_nextInput_of_step hp hexec hstep hrun
  exact ⟨tickDown_toNat t.dt, tickDown_toNat t.st⟩

end Sys2Proof.Machine

/-! `JP V0, nnn` (41_control_flow.md R102). -/

namespace Sys2Proof.Machine

theorem exec_jpV0 (nnn : Addr12) (s : State) :
    exec (.jpV0 nnn) s = .next (s.setPc (offsetTarget nnn (s.reg 0x0#4))) := rfl

/-- Settles O4: the leading nibble alone selects `JP V0`, and the sum of nnn and V0 fits pc, the one field the
jump writes. -/
theorem offsetJumpAddsV0Exactly : Obligations.OffsetJumpAddsV0Exactly := by
  refine ⟨fun w hlead => decodeWord_jpV0 hlead, fun nnn s => ⟨_, exec_jpV0 nnn s, ?_, ?_⟩⟩
  · exact offsetTarget_toNat nnn (s.reg 0x0#4)
  · exact onlyRegsAndPc_setPc s (offsetTarget nnn (s.reg 0x0#4))

end Sys2Proof.Machine

/-! `SE Vx, kk` and `SNE Vx, kk` (42_skip.md R103, R104). -/

namespace Sys2Proof.Machine

/-- Skip or not, the one write is of pc. -/
theorem onlyRegsAndPc_skipIf (s : State) (c : Bool) : OnlyRegsAndPc [] s (s.skipIf c) :=
  onlyRegsAndPc_setPc s (if c then s.pc + 2 else s.pc)

theorem pc_skipIf_beq (s : State) (a b : Byte) :
    (s.skipIf (a == b)).pc = if a = b then s.pc + 2 else s.pc := by
  by_cases hab : a = b <;> simp [hab]

theorem pc_skipIf_bne (s : State) (a b : Byte) :
    (s.skipIf (a != b)).pc = if a = b then s.pc else s.pc + 2 := by
  by_cases hab : a = b <;> simp [hab]

theorem exec_seImm (x : Reg) (kk : Byte) (s : State) :
    exec (.seImm x kk) s = .next (s.skipIf (s.reg x == kk)) := rfl

theorem exec_sneImm (x : Reg) (kk : Byte) (s : State) :
    exec (.sneImm x kk) s = .next (s.skipIf (s.reg x != kk)) := rfl

/-- Settles O6: the leading nibble alone selects `SE Vx, kk`, which is the skip on `Vx = kk`. -/
theorem skipIfRegisterEqualsImmediate : Obligations.SkipIfRegisterEqualsImmediate := by
  refine ⟨fun w hlead => decodeWord_seImm hlead, fun x kk s => ⟨_, exec_seImm x kk s, ?_, ?_⟩⟩
  · exact pc_skipIf_beq s (s.reg x) kk
  · exact onlyRegsAndPc_skipIf s (s.reg x == kk)

/-- Settles O7: the leading nibble alone selects `SNE Vx, kk`, which is the skip on `Vx ≠ kk`. -/
theorem skipIfRegisterDiffersFromImmediate : Obligations.SkipIfRegisterDiffersFromImmediate := by
  refine ⟨fun w hlead => decodeWord_sneImm hlead, fun x kk s => ⟨_, exec_sneImm x kk s, ?_, ?_⟩⟩
  · exact pc_skipIf_bne s (s.reg x) kk
  · exact onlyRegsAndPc_skipIf s (s.reg x != kk)

end Sys2Proof.Machine

/-! `ADD Vx, Vy`, `SUB` and `SUBN` (43_arithmetic.md R113, R114, R116). Each writes a result to Vx and then a
comparison to VF, so VF holds the comparison even when x is VF. -/

namespace Sys2Proof.Machine

/-- The flag write that follows leaves the result in Vx, unless Vx is the flag. -/
theorem State.reg_setReg_setFlag_of_ne_vf (s : State) {x : Reg} (u : Byte) (c : Bool) (hx : x ≠ vf) :
    ((s.setReg x u).setFlag c).reg x = u := by
  rw [State.reg_setFlag_other _ c hx, State.reg_setReg_same]

theorem flagByte_decide (p : Prop) [Decidable p] : flagByte (decide p) = if p then 1 else 0 := by
  by_cases hp : p <;> simp [flagByte, hp]

theorem flagByte_carryOut (a b : Byte) :
    flagByte (carryOut a b) = if a.toNat + b.toNat > 255 then 1 else 0 :=
  flagByte_decide (a.toNat + b.toNat > 255)

theorem flagByte_strictlyGreater (a b : Byte) :
    flagByte (strictlyGreater a b) = if a.toNat > b.toNat then 1 else 0 :=
  flagByte_decide (a.toNat > b.toNat)

/-- Subtraction of bytes is that of the integers modulo 256 (R120). -/
theorem toNat_byte_sub (a b : Byte) : ((a - b).toNat : Int) = (a.toNat - b.toNat : Int) % 256 := by
  have hb := b.isLt
  rw [BitVec.toNat_sub]
  omega

theorem exec_addReg (x y : Reg) (s : State) :
    exec (.addReg x y) s =
      .next ((s.setReg x (s.reg x + s.reg y)).setFlag (carryOut (s.reg x) (s.reg y))) := rfl

theorem exec_sub (x y : Reg) (s : State) :
    exec (.sub x y) s =
      .next ((s.setReg x (s.reg x - s.reg y)).setFlag (strictlyGreater (s.reg x) (s.reg y))) := rfl

theorem exec_subn (x y : Reg) (s : State) :
    exec (.subn x y) s =
      .next ((s.setReg x (s.reg y - s.reg x)).setFlag (strictlyGreater (s.reg y) (s.reg x))) := rfl

/-- Settles O13: the sum of bytes is the sum modulo 256, and the carry is the last write. -/
theorem addRegistersSetsCarryLast : Obligations.AddRegistersSetsCarryLast := by
  refine ⟨fun w hmask => decodeWord_addReg hmask, fun x y s => ⟨_, exec_addReg x y s, fun hx => ?_, ?_, ?_⟩⟩
  · rw [State.reg_setReg_setFlag_of_ne_vf s _ _ hx]
    exact BitVec.toNat_add (s.reg x) (s.reg y)
  · exact (State.reg_setFlag_vf _ _).trans (flagByte_carryOut (s.reg x) (s.reg y))
  · exact onlyRegs_setReg_setFlag s x _ _

/-- What `SUB` and `SUBN` share: `a - b` written to Vx, then `a > b` to VF. -/
theorem setReg_sub_setFlag_strictlyGreater (s : State) (x : Reg) (a b : Byte) :
    let t := (s.setReg x (a - b)).setFlag (strictlyGreater a b)
    (x ≠ 0xF#4 → ((t.reg x).toNat : Int) = (a.toNat - b.toNat : Int) % 256) ∧
      t.reg 0xF#4 = (if a.toNat > b.toNat then 1 else 0) ∧ OnlyRegs [x, 0xF#4] s t := by
  refine ⟨fun hx => ?_, ?_, ?_⟩
  · rw [State.reg_setReg_setFlag_of_ne_vf s _ _ hx]
    exact toNat_byte_sub a b
  · exact (State.reg_setFlag_vf _ _).trans (flagByte_strictlyGreater a b)
  · exact onlyRegs_setReg_setFlag s x _ _

/-- Settles O14: `SUB` is the shared subtraction on Vx and Vy. -/
theorem subSetsStrictComparisonLast : Obligations.SubSetsStrictComparisonLast :=
  ⟨fun _ hmask => decodeWord_sub hmask, fun x y s =>
    ⟨_, exec_sub x y s, setReg_sub_setFlag_strictlyGreater s x (s.reg x) (s.reg y)⟩⟩

/-- Settles O15: `SUBN` is the shared subtraction on Vy and Vx. -/
theorem subnSetsStrictComparisonLast : Obligations.SubnSetsStrictComparisonLast :=
  ⟨fun _ hmask => decodeWord_subn hmask, fun x y s =>
    ⟨_, exec_subn x y s, setReg_sub_setFlag_strictlyGreater s x (s.reg y) (s.reg x)⟩⟩

end Sys2Proof.Machine

/-! `LD I, nnn` (44_memory_index.md R121). -/

namespace Sys2Proof.Machine

theorem exec_ldI (nnn : Addr12) (s : State) : exec (.ldI nnn) s = .next (s.setIndex (address nnn)) := rfl

/-- Settles O20: the leading nibble alone selects `LD I, nnn`, and I, the one field it writes, holds the
zero-extended nnn. -/
theorem loadIndexImmediate : Obligations.LoadIndexImmediate := by
  refine ⟨fun w hlead => decodeWord_ldI hlead, fun nnn s => ⟨_, exec_ldI nnn s, ?_, ?_⟩⟩
  · exact address_toNat nnn
  · exact onlyIndex_setIndex s (address nnn)

end Sys2Proof.Machine

/-! `CLS` (45_drawing.md R128). -/

namespace Sys2Proof.Machine

/-- The frame of a framebuffer update: VF is kept with the other registers. -/
theorem onlyRegsAndPixels_setFb (s : State) (fb : Screen) : OnlyRegsAndPixels [] s (s.setFb fb) :=
  ⟨rfl, fun _ _ => rfl, rfl, fun _ => rfl, ⟨rfl, fun _ => rfl⟩, ⟨rfl, rfl⟩, rfl, rfl, rfl⟩

/-- Settles O27: the outer nibbles alone select `CLS`, and the framebuffer, the one field it writes, becomes the
clear screen. -/
theorem clearTurnsEveryPixelOff : Obligations.ClearTurnsEveryPixelOff := by
  refine ⟨fun w hmask => decodeWord_cls hmask, fun d s => ⟨_, exec_cls d s, fun c r _ _ => ?_, ?_⟩⟩
  · exact Screen.pixel_clear c r
  · exact onlyRegsAndPixels_setFb s Screen.clear

end Sys2Proof.Machine

/-! `LD Vx, K` (46_input.md R136). -/

namespace Sys2Proof.Machine

/-- The scan finds a pressed key below which none is pressed: a key it found instead would be lower or higher, and
either way one of the two keys would be both pressed and not. -/
theorem lowestKey_eq_some_of_lowest {keys : Keys} {k : Fin 16} (hk : keys[k] = true)
    (hbelow : ∀ j : Fin 16, j < k → keys[j] = false) : lowestKey keys = some k := by
  cases hfound : lowestKey keys with
  | none =>
    have hup : keys[k] = false := lowestKey_eq_none.mp hfound k
    simp [hk] at hup
  | some j =>
    obtain ⟨hj, hbelowj⟩ := lowestKey_eq_some hfound
    rcases lt_trichotomy j k with hlt | rfl | hgt
    · simp [hbelow j hlt] at hj
    · rfl
    · simp [hbelowj k hgt] at hk

theorem exec_ldVxK_of_some {s : State} {k : Fin 16} (x : Reg) (h : lowestKey s.input.keys = some k) :
    exec (.ldVxK x) s = .next (s.setReg x (BitVec.ofNat 8 k.val)) := by
  simp [exec, execLdVxK, h, State.setReg]

theorem exec_ldVxK_of_none {s : State} (x : Reg) (h : lowestKey s.input.keys = none) :
    exec (.ldVxK x) s = .next (s.setPc (s.pc - 2)) := by
  simp [exec, execLdVxK, h, State.setPc]

/-- A running machine whose fetch is in bounds ends its step with the finish of what execute answers (40_cycle.md
R83). -/
theorem step_of_exec {s t : State} (hrun : s.status = .running) (hp : s.pc.toNat ≤ 0xFFE)
    (hexec : exec (decodeWord (s.wordAt s.pc.toNat)) s.advance = .next t) : step s = .next t.finish := by
  simp [step_of_running hrun, cycle, fetch_ok hp, hexec, finishOutcome]

/-- Going back by 2 undoes the advance of pc. -/
theorem State.advance_setPc_sub (s : State) : s.advance.setPc (s.advance.pc - 2) = s := by
  simp [State.advance, State.setPc]

/-- A key-wait step with no key pressed is the tick and the next inputs, and nothing else. -/
theorem step_ldVxK_of_none {s : State} {x : Reg} (hrun : s.status = .running) (hp : s.pc.toNat ≤ 0xFFE)
    (hdec : decodeWord (s.wordAt s.pc.toNat) = .ldVxK x) (hnone : lowestKey s.input.keys = none) :
    step s = .next s.tick.nextInput := by
  have hexec : exec (decodeWord (s.wordAt s.pc.toNat)) s.advance = .next s := by
    rw [hdec, exec_ldVxK_of_none (s := s.advance) x hnone, State.advance_setPc_sub]
  rw [step_of_exec hrun hp hexec, State.finish_of_running hrun]

/-- Settles O33: execute branches on the scan of the snapshot, and the step that finds no key leaves the state as it
was but for the tick and the inputs used up. -/
theorem keyWaitTakesTheLowestKey : Obligations.KeyWaitTakesTheLowestKey := by
  refine ⟨fun w hmask => decodeWord_ldVxK hmask, fun x s => ⟨fun k hk hbelow => ?_, fun hnone => ?_⟩,
    fun x s hrun hp hdec hnone => ?_⟩
  · refine ⟨_, exec_ldVxK_of_some x (lowestKey_eq_some_of_lowest hk hbelow), ?_, ?_⟩
    · have hfits : k.val < 2 ^ 8 := by omega
      rw [State.reg_setReg_same, BitVec.toNat_ofNat, Nat.mod_eq_of_lt hfits]
    · exact onlyRegs_setReg s x (BitVec.ofNat 8 k.val)
  · exact ⟨_, exec_ldVxK_of_none x (lowestKey_eq_none.mpr hnone), rfl, onlyRegsAndPc_setPc s (s.pc - 2)⟩
  · exact ⟨_, step_ldVxK_of_none hrun hp hdec (lowestKey_eq_none.mpr hnone), hrun, rfl, fun _ _ => rfl,
      tickDown_toNat s.dt, tickDown_toNat s.st⟩

end Sys2Proof.Machine

/-! `LD Vx, DT` and `LD DT, Vx` (47_timers.md R138, R139). A step over either is its write on the advanced state,
then the tick, so the tick lowers the DT that execute left. -/

namespace Sys2Proof.Machine

theorem exec_ldVxDT (x : Reg) (s : State) : exec (.ldVxDT x) s = .next (s.setReg x s.dt) := rfl

theorem exec_ldDTVx (x : Reg) (s : State) : exec (.ldDTVx x) s = .next (s.setDt (s.reg x)) := rfl

/-- A step whose execute phase leaves the machine running ends with the tick and the next inputs (40_cycle.md
R91). -/
theorem step_of_exec_of_running {i : Instr} {s t : State} (hrun : s.status = .running)
    (hp : s.pc.toNat ≤ 0xFFE) (hdec : decodeWord (s.wordAt s.pc.toNat) = i)
    (hexec : exec i s.advance = .next t) (ht : t.status = .running) : step s = .next t.tick.nextInput := by
  subst hdec
  rw [step_of_exec hrun hp hexec, State.finish_of_running ht]

/-- Settles O34: `LD Vx, DT` writes Vx alone, and the tick that ends its step lowers DT after the read. -/
theorem readDelayTimer : Obligations.ReadDelayTimer := by
  refine ⟨fun w hmask => decodeWord_ldVxDT hmask, fun x s => ⟨_, exec_ldVxDT x s, ?_, ?_⟩,
    fun s x hrun hp hdec => ⟨_, step_of_exec_of_running hrun hp hdec (exec_ldVxDT x s.advance) hrun, ?_, ?_⟩⟩
  · exact State.reg_setReg_same s x s.dt
  · exact onlyRegs_setReg s x s.dt
  · exact State.reg_setReg_same s.advance x s.dt
  · exact tickDown_toNat s.dt

/-- Settles O35: `LD DT, Vx` writes DT alone, and the tick that ends its step lowers what it wrote. -/
theorem setDelayTimer : Obligations.SetDelayTimer := by
  refine ⟨fun w hmask => decodeWord_ldDTVx hmask, fun x s => ⟨_, exec_ldDTVx x s, rfl, rfl, rfl, fun _ _ => rfl,
    rfl, fun _ => rfl, fun _ _ => rfl, ⟨rfl, fun _ => rfl⟩, rfl, rfl, rfl⟩,
    fun s x hrun hp hdec => ⟨_, step_of_exec_of_running hrun hp hdec (exec_ldDTVx x s.advance) hrun, ?_⟩⟩
  exact tickDown_toNat (s.reg x)

end Sys2Proof.Machine

/-! `JP nnn` (41_control_flow.md R99), and `JP` to its own address (70_reset_and_hazards.md R178). -/

namespace Sys2Proof.Machine

theorem exec_jp (nnn : Addr12) (s : State) : exec (.jp nnn) s = .next (s.setPc (address nnn)) := rfl

/-- A jump to the address the instruction came from undoes the advance of pc. -/
theorem State.advance_setPc_address {s : State} {nnn : Addr12} (hself : nnn.toNat = s.pc.toNat) :
    s.advance.setPc (address nnn) = s := by
  have hpc : address nnn = s.pc := BitVec.eq_of_toNat_eq ((address_toNat nnn).trans hself)
  rw [hpc]
  rfl

/-- A step over a jump to its own address is the tick and the next inputs, and nothing else. -/
theorem step_jp_of_self {s : State} {nnn : Addr12} (hrun : s.status = .running) (hp : s.pc.toNat ≤ 0xFFE)
    (hself : nnn.toNat = s.pc.toNat) (hdec : decodeWord (s.wordAt s.pc.toNat) = .jp nnn) :
    step s = .next s.tick.nextInput := by
  have hexec : exec (.jp nnn) s.advance = .next s := by
    rw [exec_jp, State.advance_setPc_address hself]
  exact step_of_exec_of_running hrun hp hdec hexec hrun

/-- Settles O1: the leading nibble alone selects `JP`, whose one write is of pc, and the step over the self-loop
leaves the state as it was but for the tick and the inputs used up. -/
theorem jumpLeavesTheTarget : Obligations.JumpLeavesTheTarget := by
  refine ⟨fun w hlead => decodeWord_jp hlead, fun nnn s => ⟨_, exec_jp nnn s, ?_, ?_⟩,
    fun s nnn hrun hp hself hdec => ⟨_, step_jp_of_self hrun hp hself hdec, ?_, ?_, ?_⟩⟩
  · exact address_toNat nnn
  · exact onlyRegsAndPc_setPc s (address nnn)
  · rfl
  · exact tickDown_toNat s.dt
  · exact tickDown_toNat s.st

end Sys2Proof.Machine

/-! The decoder and the encoder (30_encoding.md R61 to R73): each undoes the other, and the words of 48_null.md R141
are the ones that decode to `NOP`. -/

namespace Sys2Proof

/-- Outside the nine keys of sub-table 8 lie exactly the seven that 48_null.md R141 lists. -/
theorem mem_unassigned8_of_ne {n : BitVec 4} (h0 : n ≠ 0x0#4) (h1 : n ≠ 0x1#4) (h2 : n ≠ 0x2#4)
    (h3 : n ≠ 0x3#4) (h4 : n ≠ 0x4#4) (h5 : n ≠ 0x5#4) (h6 : n ≠ 0x6#4) (h7 : n ≠ 0x7#4) (hE : n ≠ 0xE#4) :
    n ∈ [0x8#4, 0x9#4, 0xA#4, 0xB#4, 0xC#4, 0xD#4, 0xF#4] := by
  revert n
  decide

theorem decodeFamily0_eq_nop_iff (w : Word) :
    decodeFamily0 w = .nop w ↔ fieldN w ∉ [0x0#4, 0xE#4] := by
  unfold decodeFamily0
  split <;> simp_all

theorem decodeFamily8_eq_nop_iff (w : Word) :
    decodeFamily8 w = .nop w ↔ fieldN w ∈ [0x8#4, 0x9#4, 0xA#4, 0xB#4, 0xC#4, 0xD#4, 0xF#4] := by
  unfold decodeFamily8
  split
  case h_10 h0 h1 h2 h3 h4 h5 h6 h7 hE =>
    exact iff_of_true rfl (mem_unassigned8_of_ne h0 h1 h2 h3 h4 h5 h6 h7 hE)
  all_goals simp_all

theorem decodeFamilyE_eq_nop_iff (w : Word) :
    decodeFamilyE w = .nop w ↔ fieldN w ∉ [0x1#4, 0xE#4] := by
  unfold decodeFamilyE
  split <;> simp_all

theorem decodeFamilyF_eq_nop_iff (w : Word) :
    decodeFamilyF w = .nop w ↔
      fieldKK w ∉ [0x07#8, 0x0A#8, 0x15#8, 0x18#8, 0x1E#8, 0x29#8, 0x33#8, 0x55#8, 0x65#8] := by
  unfold decodeFamilyF
  split <;> simp_all

/-- The words of 48_null.md R141's four lists, as propositions about the fields. -/
theorem unassigned_iff (w : Word) :
    unassigned w = true ↔
      (fieldLead w = 0x0#4 ∧ fieldN w ∉ [0x0#4, 0xE#4]) ∨
      (fieldLead w = 0x8#4 ∧ fieldN w ∈ [0x8#4, 0x9#4, 0xA#4, 0xB#4, 0xC#4, 0xD#4, 0xF#4]) ∨
      (fieldLead w = 0xE#4 ∧ fieldN w ∉ [0x1#4, 0xE#4]) ∨
      (fieldLead w = 0xF#4 ∧ fieldKK w ∉
        [0x07#8, 0x0A#8, 0x15#8, 0x18#8, 0x1E#8, 0x29#8, 0x33#8, 0x55#8, 0x65#8]) := by
  simp only [unassigned, Bool.or_eq_true, Bool.and_eq_true, beq_iff_eq, List.contains_eq_mem, decide_eq_true_eq,
    Bool.not_eq_true', decide_eq_false_iff_not, or_assoc]

theorem lead_eq_F_of_ne {n : BitVec 4} (h0 : n ≠ 0x0#4) (h1 : n ≠ 0x1#4) (h2 : n ≠ 0x2#4)
    (h3 : n ≠ 0x3#4) (h4 : n ≠ 0x4#4) (h5 : n ≠ 0x5#4) (h6 : n ≠ 0x6#4) (h7 : n ≠ 0x7#4) (h8 : n ≠ 0x8#4)
    (h9 : n ≠ 0x9#4) (hA : n ≠ 0xA#4) (hB : n ≠ 0xB#4) (hC : n ≠ 0xC#4) (hD : n ≠ 0xD#4) (hE : n ≠ 0xE#4) :
    n = 0xF#4 := by
  bv_omega

theorem decodeWord_eq_nop_iff (w : Word) : decodeWord w = .nop w ↔ unassigned w = true := by
  rw [unassigned_iff]
  unfold decodeWord
  split
  case h_1 hl => simp [hl, decodeFamily0_eq_nop_iff]
  case h_9 hl => simp [hl, decodeFamily8_eq_nop_iff]
  case h_15 hl => simp [hl, decodeFamilyE_eq_nop_iff]
  case h_16 h0 h1 h2 h3 h4 h5 h6 h7 h8 h9 hA hB hC hD hE =>
    have hl := lead_eq_F_of_ne h0 h1 h2 h3 h4 h5 h6 h7 h8 h9 hA hB hC hD hE
    simp [hl, decodeFamilyF_eq_nop_iff]
  all_goals simp_all

/-- The decoder reads an instruction off its own word. -/
theorem decodeWord_encode {i : Instr} (hi : i.WellFormed) : decodeWord (encode i) = i := by
  cases i with
  | nop w => exact (decodeWord_eq_nop_iff w).mpr hi
  | cls _ | ret _ => simp [encode, decodeWord, decodeFamily0]
  | ldReg _ _ | or _ _ | and _ _ | xor _ _ | addReg _ _ | sub _ _ | shr _ _ | subn _ _ | shl _ _ =>
    simp [encode, decodeWord, decodeFamily8]
  | skp _ _ | sknp _ _ => simp [encode, decodeWord, decodeFamilyE]
  | ldVxDT _ | ldVxK _ | ldDTVx _ | ldSTVx _ | addI _ | ldF _ | ldB _ | storeRegs _ | loadRegs _ =>
    simp [encode, decodeWord, decodeFamilyF]
  | _ => simp [encode, decodeWord]
/-- Settles O39: the bytes of a word, read back, are the word. -/
theorem decodeInvertsEncode : Obligations.DecodeInvertsEncode := by
  intro i hi
  refine ⟨decodeWord_encode hi, fun rest => ?_⟩
  calc
    decode (encodeBytes i ++ rest)
      = .ok (decodeWord (joinBytes (firstByte (encode i)) (secondByte (encode i))), rest) := rfl
    _ = .ok (i, rest) := by rw [joinBytes_bytes, decodeWord_encode hi]

theorem encode_decodeFamily0 {w : Word} (hl : fieldLead w = 0x0#4) : encode (decodeFamily0 w) = w := by
  have hw := word_dn w
  unfold decodeFamily0
  split <;> simp_all [encode]

theorem encode_decodeFamily8 {w : Word} (hl : fieldLead w = 0x8#4) : encode (decodeFamily8 w) = w := by
  have hw := word_xyn w
  unfold decodeFamily8
  split <;> simp_all [encode]

theorem encode_decodeFamilyE {w : Word} (hl : fieldLead w = 0xE#4) : encode (decodeFamilyE w) = w := by
  have hw := word_xyn w
  unfold decodeFamilyE
  split <;> simp_all [encode]

theorem encode_decodeFamilyF {w : Word} (hl : fieldLead w = 0xF#4) : encode (decodeFamilyF w) = w := by
  have hw := word_xkk w
  unfold decodeFamilyF
  split <;> simp_all [encode]

/-- No bit of a word is lost in its instruction. -/
theorem encode_decodeWord (w : Word) : encode (decodeWord w) = w := by
  have htwo := word_two w
  have hxkk := word_xkk w
  have hxyn := word_xyn w
  unfold decodeWord
  split
  case h_1 hl => exact encode_decodeFamily0 hl
  case h_9 hl => exact encode_decodeFamily8 hl
  case h_15 hl => exact encode_decodeFamilyE hl
  case h_16 h0 h1 h2 h3 h4 h5 h6 h7 h8 h9 hA hB hC hD hE =>
    exact encode_decodeFamilyF (lead_eq_F_of_ne h0 h1 h2 h3 h4 h5 h6 h7 h8 h9 hA hB hC hD hE)
  case h_2 hl | h_3 hl | h_11 hl | h_12 hl => rwa [hl] at htwo
  case h_4 hl | h_5 hl | h_7 hl | h_8 hl | h_13 hl => rwa [hl] at hxkk
  case h_6 hl | h_10 hl | h_14 hl => rwa [hl] at hxyn

theorem wellFormed_of_ne_nop {i : Instr} (h : ∀ w, i ≠ .nop w) : i.WellFormed := by
  cases i with
  | nop w => exact absurd rfl (h w)
  | _ => rfl

/-- What the decoder answers is well formed: where it answers a `NOP`, that `NOP` holds the word itself, which is
one of the four lists'. -/
theorem wellFormed_decodeWord (w : Word) : (decodeWord w).WellFormed := by
  by_cases h : ∃ w', decodeWord w = .nop w'
  · obtain ⟨w', hw'⟩ := h
    obtain rfl : w' = w := by rw [← encode_decodeWord w, hw']; rfl
    rw [hw']
    exact (decodeWord_eq_nop_iff w').mp hw'
  · exact wellFormed_of_ne_nop (not_exists.mp h)

/-- Settles O40: the decoder answers a well-formed instruction, which holds every bit of the word. -/
theorem encodeInvertsDecode : Obligations.EncodeInvertsDecode :=
  fun w => ⟨wellFormed_decodeWord w, encode_decodeWord w⟩

end Sys2Proof

/-! The rows of the opcode map (30_encoding.md R73): a word fits the row of the instruction it decodes to and no
other, and `NOP` has none. -/

namespace Sys2Proof.Machine

/-- A word that fits a row of the opcode map decodes to the instruction of that row. -/
theorem tableRow_decodeWord_of_mem (w : Word) :
    ∀ r ∈ opcodeRows, w &&& r.1 = r.2 → tableRow (decodeWord w) = some r := by
  simp only [opcodeRows, List.cons_append, List.nil_append, List.forall_mem_cons]
  exact ⟨fun h => congrArg tableRow (decodeWord_cls h), fun h => congrArg tableRow (decodeWord_ret h),
    fun h => congrArg tableRow (decodeWord_jp h), fun h => congrArg tableRow (decodeWord_call h),
    fun h => congrArg tableRow (decodeWord_seImm h), fun h => congrArg tableRow (decodeWord_sneImm h),
    fun h => congrArg tableRow (decodeWord_seReg h), fun h => congrArg tableRow (decodeWord_ldImm h),
    fun h => congrArg tableRow (decodeWord_addImm h), fun h => congrArg tableRow (decodeWord_ldReg h),
    fun h => congrArg tableRow (decodeWord_or h), fun h => congrArg tableRow (decodeWord_and h),
    fun h => congrArg tableRow (decodeWord_xor h), fun h => congrArg tableRow (decodeWord_addReg h),
    fun h => congrArg tableRow (decodeWord_sub h), fun h => congrArg tableRow (decodeWord_shr h),
    fun h => congrArg tableRow (decodeWord_subn h), fun h => congrArg tableRow (decodeWord_shl h),
    fun h => congrArg tableRow (decodeWord_sneReg h), fun h => congrArg tableRow (decodeWord_ldI h),
    fun h => congrArg tableRow (decodeWord_jpV0 h), fun h => congrArg tableRow (decodeWord_rnd h),
    fun h => congrArg tableRow (decodeWord_drw h), fun h => congrArg tableRow (decodeWord_skp h),
    fun h => congrArg tableRow (decodeWord_sknp h), fun h => congrArg tableRow (decodeWord_ldVxDT h),
    fun h => congrArg tableRow (decodeWord_ldVxK h), fun h => congrArg tableRow (decodeWord_ldDTVx h),
    fun h => congrArg tableRow (decodeWord_ldSTVx h), fun h => congrArg tableRow (decodeWord_addI h),
    fun h => congrArg tableRow (decodeWord_ldF h), fun h => congrArg tableRow (decodeWord_ldB h),
    fun h => congrArg tableRow (decodeWord_storeRegs h), fun h => congrArg tableRow (decodeWord_loadRegs h),
    fun _ h => absurd h List.not_mem_nil⟩

theorem tableRow_statement (i : Instr) : Laws.TableRow.Statement i := by
  cases i
  exacts [Laws.TableRow.cls _, Laws.TableRow.ret _, Laws.TableRow.jp _, Laws.TableRow.call _,
    Laws.TableRow.seImm _ _, Laws.TableRow.sneImm _ _, Laws.TableRow.seReg _ _ _, Laws.TableRow.ldImm _ _,
    Laws.TableRow.addImm _ _, Laws.TableRow.ldReg _ _, Laws.TableRow.or _ _, Laws.TableRow.and _ _,
    Laws.TableRow.xor _ _, Laws.TableRow.addReg _ _, Laws.TableRow.sub _ _, Laws.TableRow.shr _ _,
    Laws.TableRow.subn _ _, Laws.TableRow.shl _ _, Laws.TableRow.sneReg _ _ _, Laws.TableRow.ldI _,
    Laws.TableRow.jpV0 _, Laws.TableRow.rnd _ _, Laws.TableRow.drw _ _ _, Laws.TableRow.skp _ _,
    Laws.TableRow.sknp _ _, Laws.TableRow.ldVxDT _, Laws.TableRow.ldVxK _, Laws.TableRow.ldDTVx _,
    Laws.TableRow.ldSTVx _, Laws.TableRow.addI _, Laws.TableRow.ldF _, Laws.TableRow.ldB _,
    Laws.TableRow.storeRegs _, Laws.TableRow.loadRegs _, Laws.TableRow.nop _]

theorem mem_opcodeRows_of_tableRow {i : Instr} {r : Word × Word} (h : tableRow i = some r) : r ∈ opcodeRows := by
  cases i <;> cases h <;> decide

/-- The word of a well-formed instruction fits its row, and every word is that of the instruction it decodes to. -/
theorem and_mask_eq_of_tableRow {w : Word} {r : Word × Word} (h : tableRow (decodeWord w) = some r) :
    w &&& r.1 = r.2 := by
  have hrow := tableRow_statement (decodeWord w) (wellFormed_decodeWord w)
  simpa only [h, encode_decodeWord] using hrow

theorem decodeWord_eq_nop_of_tableRow {w : Word} (h : tableRow (decodeWord w) = none) : decodeWord w = .nop w := by
  have hrow := tableRow_statement (decodeWord w) (wellFormed_decodeWord w)
  rw [decodeWord_eq_nop_iff]
  simpa only [h, encode_decodeWord] using hrow

/-- Settles O41: the rows that a word fits are the row of the instruction it decodes to, and `NOP` has none. -/
theorem nopIsExactlyTheUnmatchedWords : Obligations.NopIsExactlyTheUnmatchedWords := by
  refine ⟨fun w => ⟨fun hnop r hr hmatch => ?_, fun hnone => ?_⟩, ?_⟩
  · have hrow := tableRow_decodeWord_of_mem w r hr hmatch
    rw [hnop] at hrow
    cases hrow
  · cases hrow : tableRow (decodeWord w) with
    | some r => exact absurd (and_mask_eq_of_tableRow hrow) (hnone r (mem_opcodeRows_of_tableRow hrow))
    | none => exact decodeWord_eq_nop_of_tableRow hrow
  · have hdistinct : opcodeRows.Nodup := by decide
    refine hdistinct.imp_of_mem fun hr hq hne w hboth => hne ?_
    obtain ⟨hwr, hwq⟩ := hboth
    exact Option.some.inj
      ((tableRow_decodeWord_of_mem w _ hr hwr).symm.trans (tableRow_decodeWord_of_mem w _ hq hwq))

/-- Settles O38: twenty-six closed words, decoded. -/
theorem sampleWordsDecodeAsTheTableSays : Obligations.SampleWordsDecodeAsTheTableSays := by
  unfold Obligations.SampleWordsDecodeAsTheTableSays
  decide

theorem exec_nop (w : Word) (s : State) : exec (.nop w) s = .next s := rfl

/-- Settles O37: the words that decode to `NOP` are the unassigned ones, and the step over one is the advance of
pc, the tick and the next inputs. -/
theorem unassignedWordsDoNothing : Obligations.UnassignedWordsDoNothing := by
  refine ⟨fun w => (decodeWord_eq_nop_iff w).trans (unassigned_iff w), exec_nop,
    fun s w hrun hp hdec => ⟨_, step_of_exec_of_running hrun hp hdec (exec_nop w s.advance) hrun, ?_, ?_, ?_⟩⟩
  · rfl
  · exact tickDown_toNat s.dt
  · exact tickDown_toNat s.st

end Sys2Proof.Machine

/-! What the execute phase can do, instruction by instruction: it answers a state (40_cycle.md R82), and each part
of the state has its own writers (10_state.md R19, R28, R34; 44_memory_index.md R127; 20_memory.md R42). -/

namespace Sys2Proof.Machine

theorem exists_checked (i : Instr) (s t : State) (check : Option FaultKind) :
    ∃ t', checked i s check t = .next t' := by
  cases check with
  | none => exact ⟨t, rfl⟩
  | some k => exact ⟨_, rfl⟩

/-- No instruction refuses or blocks. -/
theorem exists_exec (i : Instr) (s : State) : ∃ t, exec i s = .next t := by
  cases i with
  | ret _ | call _ | drw _ _ _ | skp _ _ | sknp _ _ | addI _ | ldB _ | storeRegs _ | loadRegs _ =>
    exact exists_checked _ _ _ _
  | _ => exact ⟨_, rfl⟩

theorem step_of_fetch_fault {s : State} (hrun : s.status = .running) (hp : 0xFFF ≤ s.pc.toNat) :
    step s = .next (s.takeFault (.fetchBounds s.pc) s.pc none) := by
  simp [step_of_running hrun, cycle, fetch_error hp]

/-- Settles O46: a step of a running machine is a fetch fault, or ends what execute answers. -/
theorem noInstructionRefusesOrBlocks : Obligations.NoInstructionRefusesOrBlocks := by
  refine ⟨exists_exec, fun s hrun => ?_⟩
  by_cases hp : s.pc.toNat ≤ 0xFFE
  · obtain ⟨t, hexec⟩ := exists_exec (decodeWord (s.wordAt s.pc.toNat)) s.advance
    exact ⟨_, step_of_exec hrun hp hexec⟩
  · exact ⟨_, step_of_fetch_fault hrun (by omega)⟩

/-- Settles O44: the fetch fails, and its fault is taken on the state as it stands. -/
theorem fetchPastMemoryFaults : Obligations.FetchPastMemoryFaults :=
  fun _ hrun hp => step_of_fetch_fault hrun hp

/-- Settles O45: a step looks at the run status first. -/
theorem faultedStateHasNoStep : Obligations.FaultedStateHasNoStep := fun _ _ _ _ h => step_of_faulted h

/-- Past the fetch, a step is the end of whatever execute answers on the advanced state. -/
theorem step_eq_finishOutcome {s : State} (hrun : s.status = .running) (hp : s.pc.toNat ≤ 0xFFE) :
    step s = finishOutcome (exec (decodeWord (s.wordAt s.pc.toNat)) s.advance) := by
  simp [step_of_running hrun, cycle, fetch_ok hp]

/-- The end of a step does nothing to a faulted state. -/
theorem State.finish_of_not_running {s : State} (h : s.status ≠ .running) : s.finish = s := by
  cases hs : s.status with
  | running => exact absurd hs h
  | faulted k p o => exact State.finish_of_faulted hs

/-- Settles O42: the end of a step is the tick and the next inputs on a running state, and the identity on a
faulted state, a fault and a refusal. -/
theorem stepExecutesTheDecodedInstruction : Obligations.StepExecutesTheDecodedInstruction := by
  intro s i rest hrun hp hdec
  obtain ⟨rfl, -⟩ : decodeWord (s.wordAt s.pc.toNat) = i ∧ [] = rest := Prod.mk.inj (Except.ok.inj hdec)
  rw [step_eq_finishOutcome hrun hp]
  refine ⟨fun t hexec => ?_, fun r hexec => congrArg finishOutcome hexec,
    fun r hexec => congrArg finishOutcome hexec⟩
  refine (congrArg finishOutcome hexec).trans (congrArg Host.Outcome.next ?_)
  by_cases ht : t.status = .running
  · rw [State.finish_of_running ht, if_pos ht]
    rfl
  · rw [State.finish_of_not_running ht, if_neg ht]

/-- An instruction takes a fault, or leaves the run status alone. -/
theorem takeFault_or_status_of_exec {i : Instr} {s t : State} (h : exec i s = .next t) :
    (∃ k, t = s.takeFault k (s.pc - 2) (some (encode i))) ∨ t.status = s.status := by
  cases i with
  | ret _ | call _ | drw _ _ _ | skp _ _ | sknp _ _ | addI _ | ldB _ | storeRegs _ | loadRegs _ =>
    obtain ⟨-, rfl⟩ | ⟨k, -, rfl⟩ := checked_cases h
    · exact .inr (by simp)
    · exact .inl ⟨k, rfl⟩
  | _ => cases h; exact .inr rfl

/-- Settles O47: execute is given pc + 2 and the fault puts pc back, and the word of the decoded instruction is the
fetched one. -/
theorem faultingStepChangesOnlyTheStatus : Obligations.FaultingStepChangesOnlyTheStatus := by
  intro s t hstep hfault
  obtain ⟨hrun, ⟨hp, rfl⟩ | ⟨hp, u, hexec, rfl⟩⟩ := step_cases hstep
  · refine ⟨rfl, .fetchBounds s.pc, ?_⟩
    rw [if_neg (by omega)]
    rfl
  · obtain ⟨k, rfl⟩ | hstatus := takeFault_or_status_of_exec hexec
    · have hpc : s.advance.pc - 2 = s.pc := by simp
      rw [State.finish_of_faulted (State.status_takeFault s.advance ..), hpc, encode_decodeWord, if_pos hp]
      exact ⟨rfl, k, rfl⟩
    · exact absurd ((State.status_finish u).trans (hstatus.trans hrun)) hfault

/-- What neither the effect nor a fault changes, a checked instruction does not change. -/
theorem eq_of_checked {α : Type} {f : State → α} {i : Instr} {s t t' : State} {check : Option FaultKind}
    (h : checked i s check t = .next t') (ht : f t = f s)
    (hfault : ∀ k p o, f (s.takeFault k p o) = f s) : f t' = f s := by
  obtain ⟨-, rfl⟩ | ⟨k, -, rfl⟩ := checked_cases h
  · exact ht
  · exact hfault k _ _

/-- The three instructions of R127 alone write I. -/
theorem index_of_exec {i : Instr} {s t : State} (hldI : ∀ nnn, i ≠ .ldI nnn) (haddI : ∀ x, i ≠ .addI x)
    (hldF : ∀ x, i ≠ .ldF x) (h : exec i s = .next t) : t.index = s.index := by
  cases i with
  | ldI nnn => exact absurd rfl (hldI nnn)
  | addI x => exact absurd rfl (haddI x)
  | ldF x => exact absurd rfl (hldF x)
  | ret _ | call _ | drw _ _ _ | skp _ _ | sknp _ _ | ldB _ | storeRegs _ | loadRegs _ =>
    exact eq_of_checked h (by simp) fun _ _ _ => rfl
  | _ => cases h; rfl

/-- Settles O55: `index_of_exec`, instruction by instruction. -/
theorem onlyIndexInstructionsWriteIndex : Obligations.OnlyIndexInstructionsWriteIndex :=
  fun _ _ _ h hldI haddI hldF => index_of_exec hldI haddI hldF h

/-- The two stores of R42 alone write memory. -/
theorem mem_of_exec {i : Instr} {s t : State} (hldB : ∀ x, i ≠ .ldB x) (hstore : ∀ x, i ≠ .storeRegs x)
    (h : exec i s = .next t) : t.mem = s.mem := by
  cases i with
  | ldB x => exact absurd rfl (hldB x)
  | storeRegs x => exact absurd rfl (hstore x)
  | ret _ | call _ | drw _ _ _ | skp _ _ | sknp _ _ | addI _ | loadRegs _ =>
    exact eq_of_checked h (by simp) fun _ _ _ => rfl
  | _ => cases h; rfl

/-- `CALL` and `RET` alone touch the stack. -/
theorem sp_stack_of_exec {i : Instr} {s t : State} (hcall : ∀ nnn, i ≠ .call nnn) (hret : ∀ d, i ≠ .ret d)
    (h : exec i s = .next t) : t.sp = s.sp ∧ t.stack = s.stack := by
  cases i with
  | call nnn => exact absurd rfl (hcall nnn)
  | ret d => exact absurd rfl (hret d)
  | drw _ _ _ | skp _ _ | sknp _ _ | addI _ | ldB _ | storeRegs _ | loadRegs _ =>
    exact ⟨eq_of_checked h (by simp) fun _ _ _ => rfl, eq_of_checked h (by simp) fun _ _ _ => rfl⟩
  | _ => cases h; exact ⟨rfl, rfl⟩

theorem sameStack_of_exec {i : Instr} {s t : State} (hcall : ∀ nnn, i ≠ .call nnn) (hret : ∀ d, i ≠ .ret d)
    (h : exec i s = .next t) : SameStack s t := by
  obtain ⟨hsp, hstack⟩ := sp_stack_of_exec hcall hret h
  exact ⟨hsp, fun j => by rw [State.slot, State.slot, hstack]⟩

theorem dt_of_exec {i : Instr} {s t : State} (hdt : ∀ x, i ≠ .ldDTVx x) (h : exec i s = .next t) :
    t.dt = s.dt := by
  cases i with
  | ldDTVx x => exact absurd rfl (hdt x)
  | ret _ | call _ | drw _ _ _ | skp _ _ | sknp _ _ | addI _ | ldB _ | storeRegs _ | loadRegs _ =>
    exact eq_of_checked h (by simp) fun _ _ _ => rfl
  | _ => cases h; rfl

theorem st_of_exec {i : Instr} {s t : State} (hst : ∀ x, i ≠ .ldSTVx x) (h : exec i s = .next t) :
    t.st = s.st := by
  cases i with
  | ldSTVx x => exact absurd rfl (hst x)
  | ret _ | call _ | drw _ _ _ | skp _ _ | sknp _ _ | addI _ | ldB _ | storeRegs _ | loadRegs _ =>
    exact eq_of_checked h (by simp) fun _ _ _ => rfl
  | _ => cases h; rfl

/-- Settles O56: each of the stack, the two timers and memory is kept by all but its own writers. -/
theorem stackTimersAndMemoryHaveTheirOwnWriters : Obligations.StackTimersAndMemoryHaveTheirOwnWriters :=
  fun _ _ _ h => ⟨fun hcall hret => sameStack_of_exec hcall hret h, fun hdt => dt_of_exec hdt h,
    fun hst => st_of_exec hst h, fun hldB hstore a => congrArg (Memory.byteAt · a) (mem_of_exec hldB hstore h)⟩

/-- An instruction that leaves the register file alone keeps every register. -/
theorem sameRegsBut_of_v_eq {ws : List Reg} {s t : State} (h : t.v = s.v) : SameRegsBut ws s t :=
  fun z _ => by rw [State.reg, State.reg]; simp only [h]

theorem OnlyRegs.sameRegsBut {ws : List Reg} {s t : State} (h : OnlyRegs ws s t) : SameRegsBut ws s t := by
  obtain ⟨-, hregs, -⟩ := h
  exact hregs

theorem OnlyRegsAndPixels.sameRegsBut {ws : List Reg} {s t : State} (h : OnlyRegsAndPixels ws s t) :
    SameRegsBut ws s t := by
  obtain ⟨-, hregs, -⟩ := h
  exact hregs

theorem sameRegsBut_of_checked {ws : List Reg} {i : Instr} {s t t' : State} {check : Option FaultKind}
    (h : checked i s check t = .next t') (ht : SameRegsBut ws s t) : SameRegsBut ws s t' := by
  obtain ⟨-, rfl⟩ | ⟨k, -, rfl⟩ := checked_cases h
  · exact ht
  · exact fun _ _ => rfl

/-- All that the key-wait can do: write the lowest pressed key to Vx, or go back to its own address. -/
theorem exec_ldVxK_cases {x : Reg} {s t : State} (h : exec (.ldVxK x) s = .next t) :
    (∃ k, lowestKey s.input.keys = some k ∧ t = s.setReg x (BitVec.ofNat 8 k.val)) ∨
      (lowestKey s.input.keys = none ∧ t = s.setPc (s.pc - 2)) := by
  cases hkey : lowestKey s.input.keys with
  | some k => exact .inl ⟨k, rfl, Host.Outcome.next.inj (h.symm.trans (exec_ldVxK_of_some x hkey))⟩
  | none => exact .inr ⟨rfl, Host.Outcome.next.inj (h.symm.trans (exec_ldVxK_of_none x hkey))⟩

/-- Settles O54: the register writes of each kind of instruction are to the registers of its list. -/
theorem onlyListedRegistersAreWritten : Obligations.OnlyListedRegistersAreWritten := by
  intro i s t h
  cases i with
  | ldImm x _ | addImm x _ | ldReg x _ | or x _ | and x _ | xor x _ | rnd x _ | ldVxDT x =>
    cases h
    exact (onlyRegs_setReg s x _).sameRegsBut
  | ldVxK x =>
    obtain ⟨k, -, rfl⟩ | ⟨-, rfl⟩ := exec_ldVxK_cases h
    · exact (onlyRegs_setReg s x _).sameRegsBut
    · exact sameRegsBut_of_v_eq rfl
  | addReg x _ | sub x _ | subn x _ =>
    cases h
    exact (onlyRegs_setReg_setFlag s x _ _).sameRegsBut
  | shr x _ | shl x _ =>
    cases h
    exact (onlyRegs_shiftReg s _ x _ _).sameRegsBut
  | drw x y n =>
    exact sameRegsBut_of_checked h (onlyRegsAndPixels_setFlag_setFb s _ _).sameRegsBut
  | loadRegs x =>
    refine sameRegsBut_of_checked h fun z hz => ?_
    rw [State.reg_loadBlock, if_neg (mem_regsWritten_loadRegs.not.mp hz)]
  | ret _ | call _ | skp _ _ | sknp _ _ | addI _ | ldB _ | storeRegs _ =>
    exact sameRegsBut_of_v_eq (eq_of_checked h (by simp) fun _ _ _ => rfl)
  | _ => cases h; exact sameRegsBut_of_v_eq rfl

end Sys2Proof.Machine

/-! `CALL` and `RET` (41_control_flow.md R100, R101). -/

namespace Sys2Proof.Machine

/-- The check of `CALL` passes exactly where a slot is free. -/
theorem checkCall_eq_none {s : State} :
    (if s.sp.val = 16 then some (FaultKind.stackOverflow s.sp.val) else none) = none ↔ s.sp.val < 16 := by
  have := s.sp.isLt
  split <;> simp <;> omega

/-- The check of `RET` passes exactly where a slot is occupied. -/
theorem checkRet_eq_none {s : State} :
    (if s.sp.val = 0 then some (FaultKind.stackUnderflow s.sp.val) else none) = none ↔ 0 < s.sp.val := by
  split <;> simp <;> omega

theorem exec_call_of_free {s : State} (nnn : Addr12) (hfree : s.sp.val < 16) :
    exec (.call nnn) s = .next ((s.push s.pc).setPc (address nnn)) :=
  congrArg (checked (.call nnn) s · _) (checkCall_eq_none.mpr hfree)

theorem exec_call_of_full {s : State} (nnn : Addr12) (hfull : s.sp.val = 16) :
    exec (.call nnn) s = .next (s.takeFault (.stackOverflow 16) (s.pc - 2) (some (encode (.call nnn)))) := by
  have hcheck : (if s.sp.val = 16 then some (FaultKind.stackOverflow s.sp.val) else none) =
      some (.stackOverflow 16) := by rw [if_pos hfull, hfull]
  exact congrArg (checked (.call nnn) s · _) hcheck

theorem exec_ret_of_used {s : State} (d : BitVec 8) (hused : 0 < s.sp.val) :
    exec (.ret d) s = .next (s.pop.setPc (s.slot (s.sp.val - 1))) :=
  congrArg (checked (.ret d) s · _) (checkRet_eq_none.mpr hused)

theorem exec_ret_of_empty {s : State} (d : BitVec 8) (hempty : s.sp.val = 0) :
    exec (.ret d) s = .next (s.takeFault (.stackUnderflow 0) (s.pc - 2) (some (encode (.ret d)))) := by
  have hcheck : (if s.sp.val = 0 then some (FaultKind.stackUnderflow s.sp.val) else none) =
      some (.stackUnderflow 0) := by rw [if_pos hempty, hempty]
  exact congrArg (checked (.ret d) s · _) hcheck

/-- All that `CALL` can do. -/
theorem exec_call_cases {nnn : Addr12} {s t : State} (h : exec (.call nnn) s = .next t) :
    (s.sp.val < 16 ∧ t = (s.push s.pc).setPc (address nnn)) ∨
      (s.sp.val = 16 ∧ t = s.takeFault (.stackOverflow 16) (s.pc - 2) (some (encode (.call nnn)))) := by
  rcases Nat.lt_or_eq_of_le (Nat.le_of_lt_succ s.sp.isLt) with hfree | hfull
  · exact .inl ⟨hfree, Host.Outcome.next.inj (h.symm.trans (exec_call_of_free nnn hfree))⟩
  · exact .inr ⟨hfull, Host.Outcome.next.inj (h.symm.trans (exec_call_of_full nnn hfull))⟩

/-- All that `RET` can do. -/
theorem exec_ret_cases {d : BitVec 8} {s t : State} (h : exec (.ret d) s = .next t) :
    (0 < s.sp.val ∧ t = s.pop.setPc (s.slot (s.sp.val - 1))) ∨
      (s.sp.val = 0 ∧ t = s.takeFault (.stackUnderflow 0) (s.pc - 2) (some (encode (.ret d)))) := by
  rcases Nat.eq_zero_or_pos s.sp.val with hempty | hused
  · exact .inr ⟨hempty, Host.Outcome.next.inj (h.symm.trans (exec_ret_of_empty d hempty))⟩
  · exact .inl ⟨hused, Host.Outcome.next.inj (h.symm.trans (exec_ret_of_used d hused))⟩

/-- Settles O2: with a free slot `CALL` pushes pc and jumps, and with none it takes the fault. -/
theorem callSavesThePostIncrementPc : Obligations.CallSavesThePostIncrementPc := by
  refine ⟨fun w hlead => decodeWord_call hlead, fun nnn s => ⟨fun hfree => ?_, fun hfull => ?_⟩⟩
  · refine ⟨_, exec_call_of_free nnn hfree, address_toNat nnn, State.sp_push s s.pc hfree, ?_, fun j hj => ?_,
      onlyStackAndPc_push_setPc s s.pc (address nnn)⟩
    · exact (State.slot_push s s.pc hfree _).trans (if_pos rfl)
    · exact (State.slot_push s s.pc hfree j).trans (if_neg hj)
  · exact ⟨_, exec_call_of_full nnn hfull, takesFault_takeFault (.call nnn) (.stackOverflow 16) s⟩

/-- Settles O3: with an occupied slot `RET` pops it into pc, and with none it takes the fault. -/
theorem returnRestoresTheSavedPc : Obligations.ReturnRestoresTheSavedPc := by
  refine ⟨fun w hmask => decodeWord_ret hmask, fun d s => ⟨fun hused => ?_, fun hempty => ?_⟩⟩
  · exact ⟨_, exec_ret_of_used d hused, rfl, State.sp_pop s, State.slot_pop s, onlyStackAndPc_pop_setPc s _⟩
  · exact ⟨_, exec_ret_of_empty d hempty, takesFault_takeFault (.ret d) (.stackUnderflow 0) s⟩

/-- Settles O5: the slot that `RET` reads is the one that `CALL` has just filled. -/
theorem callThenReturnRoundTrips : Obligations.CallThenReturnRoundTrips := by
  intro nnn d s hfree
  have hsp : ((s.push s.pc).setPc (address nnn)).sp.val = s.sp.val + 1 := State.sp_push s s.pc hfree
  refine ⟨_, _, exec_call_of_free nnn hfree, exec_ret_of_used d (by omega), ?_, Fin.ext ?_, ?_⟩
  · rw [State.pc_setPc, hsp, State.slot_setPc, Nat.add_sub_cancel, State.slot_push s s.pc hfree, if_pos rfl]
  · rw [State.sp_setPc, State.sp_pop, hsp, Nat.add_sub_cancel]
  · simp

end Sys2Proof.Machine

/-! The invariants of a valid state: memory in canonical form, pc and the occupied slots within the bounds of
10_state.md R24. Each is kept by execute, and the end of a step touches neither. -/

namespace Sys2Proof.Machine

/-- A checked block store keeps memory canonical: where the check finds nothing, every address exists. -/
theorem memOk_of_checkSpan {i : Instr} {s t : State} {k : Nat} {bytes : List Byte} (hm : s.MemOk)
    (hlen : bytes.length = k + 1)
    (h : checked i s (checkSpan s.index.toNat k) (s.setMem (s.mem.storeBytes s.index.toNat bytes)) = .next t) :
    t.MemOk := by
  obtain ⟨hfits, rfl⟩ | ⟨_, -, rfl⟩ := checked_cases h
  · have hspan : s.index.toNat + k ≤ 0xFFF := checkSpan_eq_none.mp hfits
    exact Memory.wf_storeBytes s.index.toNat bytes hm (by simp only [Config.memSize]; omega)
  · exact hm

theorem memOk_of_exec {i : Instr} {s t : State} (hm : s.MemOk) (h : exec i s = .next t) : t.MemOk := by
  by_cases hldB : ∃ x, i = .ldB x
  · obtain ⟨x, rfl⟩ := hldB
    exact memOk_of_checkSpan hm (decimalDigits_length (s.reg x)) h
  by_cases hstore : ∃ x, i = .storeRegs x
  · obtain ⟨x, rfl⟩ := hstore
    exact memOk_of_checkSpan hm (s.regBlock_length x) h
  · have hmem : t.mem = s.mem := mem_of_exec (not_exists.mp hldB) (not_exists.mp hstore) h
    rwa [State.MemOk, hmem]

/-- Settles O48: a fetch fault and the end of a step leave memory alone, and execute keeps its form. -/
theorem memoryStaysCanonical : Obligations.MemoryStaysCanonical := by
  intro s t hm hstep
  obtain ⟨-, ⟨-, rfl⟩ | ⟨-, u, hexec, rfl⟩⟩ := step_cases hstep
  · exact hm
  · have hu : u.MemOk := memOk_of_exec (s := s.advance) hm hexec
    rwa [State.MemOk, State.mem_finish]

/-- The bound of R24 on the stack: every occupied slot holds at most 0x1000. -/
def State.SlotsOk (s : State) : Prop := ∀ j, j < s.sp.val → (s.slot j).toNat ≤ 0x1000

theorem State.pcOk_iff (s : State) : s.PcOk ↔ s.pc.toNat ≤ 0x10FE ∧ s.SlotsOk := Iff.rfl

theorem SameStack.slotsOk {s t : State} (h : SameStack s t) (hs : s.SlotsOk) : t.SlotsOk := by
  obtain ⟨hsp, hslot⟩ := h
  intro j hj
  rw [hslot]
  exact hs j (hsp ▸ hj)

/-- Saving a return address within the bound keeps it: the new slot holds that address. -/
theorem State.SlotsOk.push {s : State} {a : Word} (hs : s.SlotsOk) (ha : a.toNat ≤ 0x1000) (hfree : s.sp.val < 16) :
    (s.push a).SlotsOk := by
  intro j hj
  rw [State.sp_push s a hfree] at hj
  rw [State.slot_push s a hfree]
  by_cases hnew : j = s.sp.val
  · rwa [if_pos hnew]
  · rw [if_neg hnew]
    exact hs j (by omega)

theorem State.SlotsOk.pop {s : State} (hs : s.SlotsOk) : s.pop.SlotsOk := by
  intro j hj
  rw [State.sp_pop] at hj
  exact hs j (by omega)

/-- `CALL` is the one instruction that occupies a slot, and it saves the pc it is given. -/
theorem slotsOk_of_exec {i : Instr} {s t : State} (hpc : s.pc.toNat ≤ 0x1000) (hs : s.SlotsOk)
    (h : exec i s = .next t) : t.SlotsOk := by
  by_cases hcall : ∃ nnn, i = .call nnn
  · obtain ⟨nnn, rfl⟩ := hcall
    obtain ⟨hfree, rfl⟩ | ⟨-, rfl⟩ := exec_call_cases h
    · exact hs.push hpc hfree
    · exact hs
  by_cases hret : ∃ d, i = .ret d
  · obtain ⟨d, rfl⟩ := hret
    obtain ⟨-, rfl⟩ | ⟨-, rfl⟩ := exec_ret_cases h
    · exact hs.pop
    · exact hs
  · exact (sameStack_of_exec (not_exists.mp hcall) (not_exists.mp hret) h).slotsOk hs

/-- pc less 2 stays below a bound that pc meets: a fetched instruction's pc is at least 2. -/
theorem toNat_sub_two_le {p : Word} {b : Nat} (h2 : 2 ≤ p.toNat) (hb : p.toNat ≤ b) : (p - 2).toNat ≤ b := by
  bv_omega

theorem address_le (nnn : Addr12) : (address nnn).toNat ≤ 0x10FE := by
  rw [address_toNat]
  omega

theorem offsetTarget_le (nnn : Addr12) (u : Byte) : (offsetTarget nnn u).toNat ≤ 0x10FE := by
  rw [offsetTarget_toNat]
  omega

theorem pc_skipIf_le {s : State} (c : Bool) (hpc : s.pc.toNat ≤ 0x1000) : (s.skipIf c).pc.toNat ≤ 0x10FE := by
  cases c
  · exact hpc.trans (by decide)
  · show (s.pc + 2).toNat ≤ 0x10FE
    bv_omega

/-- A checked instruction whose effect keeps pc within the bound keeps it there: a fault puts pc back by 2. -/
theorem pc_le_of_checked {i : Instr} {s t t' : State} {check : Option FaultKind} (h2 : 2 ≤ s.pc.toNat)
    (hpc : s.pc.toNat ≤ 0x1000) (ht : t.pc.toNat ≤ 0x10FE) (h : checked i s check t = .next t') :
    t'.pc.toNat ≤ 0x10FE := by
  obtain ⟨-, rfl⟩ | ⟨_, -, rfl⟩ := checked_cases h
  · exact ht
  · exact toNat_sub_two_le h2 (hpc.trans (by decide))

/-- From a fetched instruction's pc, at most 0x1000, execute leaves at most 0x10FE, which `JP V0, nnn` reaches. -/
theorem pc_le_of_exec {i : Instr} {s t : State} (h2 : 2 ≤ s.pc.toNat) (hpc : s.pc.toNat ≤ 0x1000)
    (hs : s.SlotsOk) (h : exec i s = .next t) : t.pc.toNat ≤ 0x10FE := by
  have hkept : s.pc.toNat ≤ 0x10FE := hpc.trans (by decide)
  cases i with
  | jp nnn =>
    cases h
    exact address_le nnn
  | call nnn =>
    obtain ⟨-, rfl⟩ | ⟨-, rfl⟩ := exec_call_cases h
    · exact address_le nnn
    · exact toNat_sub_two_le h2 hkept
  | ret d =>
    obtain ⟨hused, rfl⟩ | ⟨-, rfl⟩ := exec_ret_cases h
    · exact (hs (s.sp.val - 1) (by omega)).trans (by decide)
    · exact toNat_sub_two_le h2 hkept
  | jpV0 nnn =>
    cases h
    exact offsetTarget_le nnn (s.reg 0x0#4)
  | seImm _ _ | sneImm _ _ | seReg _ _ _ | sneReg _ _ _ => cases h; exact pc_skipIf_le _ hpc
  | skp _ _ | sknp _ _ => exact pc_le_of_checked h2 hpc (pc_skipIf_le _ hpc) h
  | ldVxK x =>
    obtain ⟨k, -, rfl⟩ | ⟨-, rfl⟩ := exec_ldVxK_cases h
    · exact hkept
    · exact toNat_sub_two_le h2 hkept
  | drw _ _ _ | addI _ | ldB _ | storeRegs _ | loadRegs _ =>
    exact pc_le_of_checked h2 hpc (by simpa using hkept) h
  | _ => cases h; exact hkept

/-- Settles O49: a fetch succeeds at most at 0xFFE, so execute is given a pc from 2 to 0x1000. -/
theorem pcNeverExceedsItsBound : Obligations.PcNeverExceedsItsBound := by
  intro s t hok hstep
  rw [State.pcOk_iff] at hok ⊢
  obtain ⟨hpc, hslots⟩ := hok
  obtain ⟨-, ⟨-, rfl⟩ | ⟨hp, u, hexec, rfl⟩⟩ := step_cases hstep
  · exact ⟨hpc, hslots⟩
  · have hadv : s.advance.pc.toNat = s.pc.toNat + 2 := by rw [State.pc_advance]; bv_omega
    have hu : u.SlotsOk := slotsOk_of_exec (by omega) (s := s.advance) hslots hexec
    refine ⟨?_, SameStack.slotsOk ⟨State.sp_finish u, State.slot_finish u⟩ hu⟩
    rw [State.pc_finish]
    exact pc_le_of_exec (by omega) (by omega) (s := s.advance) hslots hexec

/-- Settles O50: at reset memory lists nothing, and no slot is occupied. -/
theorem resetMeetsTheInvariants : Obligations.ResetMeetsTheInvariants :=
  ⟨rfl, by decide, fun j hj => absurd hj (Nat.not_lt_zero j)⟩

end Sys2Proof.Machine

/-! Stack slots that are not occupied (10_state.md R34): every instruction carries them along unread, `CALL` up to
the slot it fills. -/

namespace Sys2Proof.Machine

/-- Replace the stack's slots. -/
def State.setStack (s : State) (stack : Vector Word 16) : State := { s with stack := stack }

/-- `stack` holds what the occupied slots of `s` hold. -/
def State.AgreesOnOccupied (s : State) (stack : Vector Word 16) : Prop :=
  ∀ j, j < s.sp.val → (s.setStack stack).slot j = s.slot j

theorem sameButFreeSlots_setStack_iff {s : State} {stack : Vector Word 16} :
    SameButFreeSlots s (s.setStack stack) ↔ s.AgreesOnOccupied stack :=
  and_iff_right rfl

theorem SameButFreeSlots.eq_setStack {s t : State} (h : SameButFreeSlots s t) : t = s.setStack t.stack := h.1

theorem State.push_setStack {s : State} (stack : Vector Word 16) (a : Word) (hfree : s.sp.val < 16) :
    (s.setStack stack).push a = (s.push a).setStack (stack.set s.sp.val a) := by
  have hfree' : (s.setStack stack).sp.val < 16 := hfree
  simp only [State.push, hfree, hfree', dif_pos]
  rfl

/-- The two stacks still agree where the same address is saved on both. -/
theorem State.AgreesOnOccupied.push {s : State} {stack : Vector Word 16} (h : s.AgreesOnOccupied stack) (a : Word)
    (hfree : s.sp.val < 16) : (s.push a).AgreesOnOccupied (stack.set s.sp.val a) := by
  have hfree' : (s.setStack stack).sp.val < 16 := hfree
  intro j hj
  rw [State.sp_push s a hfree] at hj
  rw [← State.push_setStack stack a hfree, State.slot_push s a hfree, State.slot_push _ a hfree']
  by_cases hnew : j = s.sp.val
  · exact (if_pos hnew).trans (if_pos hnew).symm
  · exact ((if_neg hnew).trans (h j (by omega))).trans (if_neg hnew).symm

theorem State.AgreesOnOccupied.pop {s : State} {stack : Vector Word 16} (h : s.AgreesOnOccupied stack) :
    s.pop.AgreesOnOccupied stack := by
  intro j hj
  rw [State.sp_pop] at hj
  exact h j (by omega)

theorem SameStack.agreesOnOccupied {s t : State} {stack : Vector Word 16} (hst : SameStack s t)
    (h : s.AgreesOnOccupied stack) : t.AgreesOnOccupied stack := by
  obtain ⟨hsp, hslot⟩ := hst
  intro j hj
  rw [hslot]
  exact h j (hsp ▸ hj)

theorem checked_setStack {i : Instr} {s t t' : State} {check : Option FaultKind} (stack : Vector Word 16)
    (h : checked i s check t = .next t') :
    checked i (s.setStack stack) check (t.setStack stack) = .next (t'.setStack stack) := by
  obtain ⟨rfl, rfl⟩ | ⟨k, rfl, rfl⟩ := checked_cases h <;> rfl

/-- Every instruction but `CALL` and `RET` does the same on any slots. -/
theorem exec_setStack {i : Instr} {s t : State} (stack : Vector Word 16) (hcall : ∀ nnn, i ≠ .call nnn)
    (hret : ∀ d, i ≠ .ret d) (h : exec i s = .next t) :
    exec i (s.setStack stack) = .next (t.setStack stack) := by
  cases i with
  | call nnn => exact absurd rfl (hcall nnn)
  | ret d => exact absurd rfl (hret d)
  | drw _ _ _ | skp _ _ | sknp _ _ | addI _ | ldB _ | storeRegs _ | loadRegs _ =>
    exact (checked_setStack stack h :)
  | _ => cases h; rfl

/-- Execute, on a stack that agrees on the occupied slots, does the same to all else and leaves such a stack. -/
theorem exec_setStack_of_agrees {i : Instr} {s t : State} {stack : Vector Word 16} (hocc : s.AgreesOnOccupied stack)
    (h : exec i s = .next t) :
    ∃ stack', exec i (s.setStack stack) = .next (t.setStack stack') ∧ t.AgreesOnOccupied stack' := by
  by_cases hcall : ∃ nnn, i = .call nnn
  · obtain ⟨nnn, rfl⟩ := hcall
    obtain ⟨hfree, rfl⟩ | ⟨hfull, rfl⟩ := exec_call_cases h
    · refine ⟨stack.set s.sp.val s.pc, ?_, hocc.push s.pc hfree⟩
      rw [exec_call_of_free (s := s.setStack stack) nnn hfree]
      exact congrArg (fun u : State => Host.Outcome.next (u.setPc (address nnn)))
        (State.push_setStack stack s.pc hfree)
    · exact ⟨stack, exec_call_of_full (s := s.setStack stack) nnn hfull, hocc⟩
  by_cases hret : ∃ d, i = .ret d
  · obtain ⟨d, rfl⟩ := hret
    obtain ⟨hused, rfl⟩ | ⟨hempty, rfl⟩ := exec_ret_cases h
    · refine ⟨stack, ?_, hocc.pop⟩
      have htop : (s.setStack stack).slot (s.sp.val - 1) = s.slot (s.sp.val - 1) := hocc _ (by omega)
      rw [exec_ret_of_used (s := s.setStack stack) d hused, ← htop]
      rfl
    · exact ⟨stack, exec_ret_of_empty (s := s.setStack stack) d hempty, hocc⟩
  · rw [not_exists] at hcall hret
    exact ⟨stack, exec_setStack stack hcall hret h, (sameStack_of_exec hcall hret h).agreesOnOccupied hocc⟩

theorem State.finish_setStack (s : State) (stack : Vector Word 16) :
    (s.setStack stack).finish = s.finish.setStack stack := by
  unfold State.finish
  rw [apply_ite (State.setStack · stack)]
  rfl

theorem sameStack_finish (s : State) : SameStack s s.finish := ⟨State.sp_finish s, State.slot_finish s⟩

/-- Settles O58: the fetch does not look at the stack, execute carries the free slots along, and the end of a step
keeps the stack. -/
theorem freeStackSlotsAreUnobservable : Obligations.FreeStackSlotsAreUnobservable := by
  intro s t s' hst hstep
  obtain ⟨stack, rfl⟩ : ∃ stack, t = s.setStack stack := ⟨t.stack, hst.eq_setStack⟩
  have hocc : s.AgreesOnOccupied stack := sameButFreeSlots_setStack_iff.mp hst
  obtain ⟨hrun, ⟨hp, rfl⟩ | ⟨hp, u, hexec, rfl⟩⟩ := step_cases hstep
  · exact ⟨_, step_of_fetch_fault (s := s.setStack stack) hrun hp, rfl, hocc⟩
  · obtain ⟨stack', hexec', hocc'⟩ := exec_setStack_of_agrees (s := s.advance) hocc hexec
    refine ⟨_, step_of_exec (s := s.setStack stack) hrun hp hexec', ?_⟩
    rw [State.finish_setStack, sameButFreeSlots_setStack_iff]
    exact (sameStack_finish u).agreesOnOccupied hocc'

end Sys2Proof.Machine

/-! The inputs of a step (40_cycle.md R81, R98): execute looks at the keypad snapshot and, for `RND` alone, at the
draw; the named inputs it carries along. -/

namespace Sys2Proof.Machine

/-- Replace the model's own input fields. -/
def State.setInputs (s : State) (pending : List StepInput) (stepNo : Nat) : State :=
  { s with pending := pending, stepNo := stepNo }

theorem SameButInputs.eq_setInputs {s t : State} (h : SameButInputs s t) :
    t = s.setInputs t.pending t.stepNo := h

theorem sameButInputs_setInputs (s : State) (pending : List StepInput) (stepNo : Nat) :
    SameButInputs s (s.setInputs pending stepNo) := rfl

section
variable {s t : State} {pending : List StepInput} {stepNo : Nat}

theorem State.push_setInputs (a : Word) :
    (s.setInputs pending stepNo).push a = (s.push a).setInputs pending stepNo := by
  unfold State.push
  rw [apply_dite (State.setInputs · pending stepNo)]
  rfl

theorem checked_setInputs {i : Instr} {t' : State} {check : Option FaultKind} (h : checked i s check t = .next t') :
    checked i (s.setInputs pending stepNo) check (t.setInputs pending stepNo) =
      .next (t'.setInputs pending stepNo) := by
  obtain ⟨rfl, rfl⟩ | ⟨k, rfl, rfl⟩ := checked_cases h <;> rfl

/-- Where the snapshots agree, so do the key tests. -/
theorem State.keyPressed_setInputs (hkeys : (s.setInputs pending stepNo).input.keys = s.input.keys) (u : Byte) :
    (s.setInputs pending stepNo).keyPressed u = s.keyPressed u := by
  simp only [State.keyPressed, State.key, hkeys]

/-- Where the snapshots agree, and for `RND` the draws too, execute does the same on any named inputs. -/
theorem exec_setInputs {i : Instr} (hkeys : (s.setInputs pending stepNo).input.keys = s.input.keys)
    (hdraw : (s.setInputs pending stepNo).input.draw = s.input.draw ∨ ∀ x kk, i ≠ .rnd x kk)
    (h : exec i s = .next t) :
    exec i (s.setInputs pending stepNo) = .next (t.setInputs pending stepNo) := by
  cases i with
  | rnd x kk =>
    have hsame : (s.setInputs pending stepNo).input.draw = s.input.draw :=
      hdraw.resolve_right fun hne => hne x kk rfl
    cases h
    simp only [exec, execRnd, hsame]
    rfl
  | skp x d =>
    have hskp : checked (.skp x d) (s.setInputs pending stepNo) _
      ((s.skipIf (s.keyPressed (s.reg x))).setInputs pending stepNo) = _ := checked_setInputs h
    rwa [← State.keyPressed_setInputs hkeys] at hskp
  | sknp x d =>
    have hsknp : checked (.sknp x d) (s.setInputs pending stepNo) _
      ((s.skipIf (!s.keyPressed (s.reg x))).setInputs pending stepNo) = _ := checked_setInputs h
    rwa [← State.keyPressed_setInputs hkeys] at hsknp
  | ldVxK x =>
    obtain ⟨k, hkey, rfl⟩ | ⟨hkey, rfl⟩ := exec_ldVxK_cases h
    · exact exec_ldVxK_of_some x (by rwa [hkeys])
    · exact exec_ldVxK_of_none x (by rwa [hkeys])
  | call nnn =>
    have hcall : checked (.call nnn) (s.setInputs pending stepNo) _
      (((s.push s.pc).setInputs pending stepNo).setPc (address nnn)) = _ := checked_setInputs h
    rwa [← State.push_setInputs] at hcall
  | ret _ | drw _ _ _ | addI _ | ldB _ | storeRegs _ | loadRegs _ => exact (checked_setInputs h :)
  | _ => cases h; rfl

end

/-- The end of a step leaves any two states with the same machine alike, and drops the inputs of each. -/
theorem sameButInputs_finish (s : State) (pending : List StepInput) (stepNo : Nat) :
    SameButInputs s.finish (s.setInputs pending stepNo).finish := by
  cases hs : s.status with
  | running =>
    rw [State.finish_of_running hs, State.finish_of_running (s := s.setInputs pending stepNo) hs]
    rfl
  | faulted k p o =>
    rw [State.finish_of_faulted hs, State.finish_of_faulted (s := s.setInputs pending stepNo) hs]
    rfl

/-- Settles O59: the fetch does not look at the inputs, execute at no more than the snapshot and `RND`'s draw. -/
theorem stepDependsOnTheHostThroughItsInputsOnly : Obligations.StepDependsOnTheHostThroughItsInputsOnly := by
  intro s t s' hst hkeys hdraw hstep
  obtain ⟨pending, stepNo, rfl⟩ : ∃ pending stepNo, t = s.setInputs pending stepNo := ⟨_, _, hst.eq_setInputs⟩
  obtain ⟨hrun, ⟨hp, rfl⟩ | ⟨hp, u, hexec, rfl⟩⟩ := step_cases hstep
  · exact ⟨_, step_of_fetch_fault (s := s.setInputs pending stepNo) hrun hp, rfl⟩
  · have hexec' := exec_setInputs (s := s.advance) (pending := pending) (stepNo := stepNo) hkeys hdraw hexec
    exact ⟨_, step_of_exec (s := s.setInputs pending stepNo) hrun hp hexec', sameButInputs_finish u pending stepNo⟩

end Sys2Proof.Machine

/-! `SE Vx, Vy` and `SNE Vx, Vy` (42_skip.md R105, R106), `SKP` and `SKNP` (46_input.md R134, R135). -/

namespace Sys2Proof.Machine

theorem exec_seReg (x y : Reg) (d : BitVec 4) (s : State) :
    exec (.seReg x y d) s = .next (s.skipIf (s.reg x == s.reg y)) := rfl

theorem exec_sneReg (x y : Reg) (d : BitVec 4) (s : State) :
    exec (.sneReg x y d) s = .next (s.skipIf (s.reg x != s.reg y)) := rfl

/-- Settles O8: the leading nibble alone selects `SE Vx, Vy`, which is the skip on `Vx = Vy`. -/
theorem skipIfRegistersEqual : Obligations.SkipIfRegistersEqual :=
  ⟨fun _ hlead => decodeWord_seReg hlead, fun x y d s =>
    ⟨_, exec_seReg x y d s, pc_skipIf_beq s (s.reg x) (s.reg y), onlyRegsAndPc_skipIf s _⟩⟩

/-- Settles O9: the leading nibble alone selects `SNE Vx, Vy`, which is the skip on `Vx ≠ Vy`. -/
theorem skipIfRegistersDiffer : Obligations.SkipIfRegistersDiffer :=
  ⟨fun _ hlead => decodeWord_sneReg hlead, fun x y d s =>
    ⟨_, exec_sneReg x y d s, pc_skipIf_bne s (s.reg x) (s.reg y), onlyRegsAndPc_skipIf s _⟩⟩

theorem exec_skp_of_key {s : State} {x : Reg} (d : BitVec 4) (hkey : (s.reg x).toNat < 16) :
    exec (.skp x d) s = .next (s.skipIf s.input.keys[(s.reg x).toNat]) := by
  rw [← s.keyPressed_of_lt hkey]
  exact congrArg (checked (.skp x d) s · _) (checkKey_eq_none.mpr (Nat.le_of_lt_succ hkey))

theorem exec_sknp_of_key {s : State} {x : Reg} (d : BitVec 4) (hkey : (s.reg x).toNat < 16) :
    exec (.sknp x d) s = .next (s.skipIf (!s.input.keys[(s.reg x).toNat])) := by
  rw [← s.keyPressed_of_lt hkey]
  exact congrArg (checked (.sknp x d) s · _) (checkKey_eq_none.mpr (Nat.le_of_lt_succ hkey))

/-- Where the check finds a fault, the instruction takes it. -/
theorem takesFault_of_checked {i : Instr} {s t : State} {check : Option FaultKind} {k : FaultKind}
    (hcheck : check = some k) : ∃ t', checked i s check t = .next t' ∧ TakesFault i k s t' :=
  ⟨_, congrArg (checked i s · t) hcheck, takesFault_takeFault i k s⟩

/-- Settles O31: a key number up to 15 skips on its key, a greater one is the fault. -/
theorem skipIfKeyPressed : Obligations.SkipIfKeyPressed :=
  ⟨fun _ hmask => decodeWord_skp hmask, fun _ d s =>
    ⟨fun hkey => ⟨_, exec_skp_of_key d hkey, State.pc_skipIf s _, onlyRegsAndPc_skipIf s _⟩,
      fun hbad => takesFault_of_checked (checkKey_of_gt hbad)⟩⟩

/-- Settles O32: as `SKP`, on the key being up. -/
theorem skipIfKeyNotPressed : Obligations.SkipIfKeyNotPressed := by
  refine ⟨fun _ hmask => decodeWord_sknp hmask, fun x d s =>
    ⟨fun hkey => ⟨_, exec_sknp_of_key d hkey, ?_, onlyRegsAndPc_skipIf s _⟩,
      fun hbad => takesFault_of_checked (checkKey_of_gt hbad)⟩⟩
  cases hpressed : s.input.keys[(s.reg x).toNat] <;> rfl

end Sys2Proof.Machine

/-! The loads, `ADD Vx, kk`, the bitwise operations and `RND` (43_arithmetic.md R107 to R112, R119): each writes Vx
alone. -/

namespace Sys2Proof.Machine

theorem exec_ldImm (x : Reg) (kk : Byte) (s : State) : exec (.ldImm x kk) s = .next (s.setReg x kk) := rfl

theorem exec_ldReg (x y : Reg) (s : State) : exec (.ldReg x y) s = .next (s.setReg x (s.reg y)) := rfl

theorem exec_addImm (x : Reg) (kk : Byte) (s : State) :
    exec (.addImm x kk) s = .next (s.setReg x (s.reg x + kk)) := rfl

theorem exec_or (x y : Reg) (s : State) : exec (.or x y) s = .next (s.setReg x (s.reg x ||| s.reg y)) := rfl

theorem exec_and (x y : Reg) (s : State) : exec (.and x y) s = .next (s.setReg x (s.reg x &&& s.reg y)) := rfl

theorem exec_xor (x y : Reg) (s : State) : exec (.xor x y) s = .next (s.setReg x (s.reg x ^^^ s.reg y)) := rfl

theorem exec_rnd (x : Reg) (kk : Byte) (s : State) :
    exec (.rnd x kk) s = .next (s.setReg x (s.input.draw &&& kk)) := rfl

/-- Settles O10: each load is one register write. -/
theorem loadsCopyTheirSource : Obligations.LoadsCopyTheirSource :=
  ⟨fun _ hlead => decodeWord_ldImm hlead, fun _ hmask => decodeWord_ldReg hmask,
    fun x kk s => ⟨_, exec_ldImm x kk s, State.reg_setReg_same s x kk, onlyRegs_setReg s x kk⟩,
    fun x y s => ⟨_, exec_ldReg x y s, State.reg_setReg_same s x (s.reg y), onlyRegs_setReg s x (s.reg y)⟩⟩

/-- Settles O11: addition of bytes wraps, and the one write is of Vx. -/
theorem addImmediateWritesNoFlag : Obligations.AddImmediateWritesNoFlag := by
  refine ⟨fun _ hlead => decodeWord_addImm hlead,
    fun x kk s => ⟨_, exec_addImm x kk s, ?_, onlyRegs_setReg s x _⟩⟩
  rw [State.reg_setReg_same]
  exact BitVec.toNat_add (s.reg x) kk

/-- Settles O12: the one write is of Vx, and a bit of the result is the operation on the operands' bits. -/
theorem bitwiseOperationsWriteNoFlag : Obligations.BitwiseOperationsWriteNoFlag := by
  refine ⟨fun _ hmask => decodeWord_or hmask, fun _ hmask => decodeWord_and hmask,
    fun _ hmask => decodeWord_xor hmask, fun x y s =>
      ⟨⟨_, exec_or x y s, onlyRegs_setReg s x _, fun k => ?_⟩,
        ⟨_, exec_and x y s, onlyRegs_setReg s x _, fun k => ?_⟩,
        ⟨_, exec_xor x y s, onlyRegs_setReg s x _, fun k => ?_⟩⟩⟩
  · rw [State.reg_setReg_same, BitVec.getLsbD_or]
  · rw [State.reg_setReg_same, BitVec.getLsbD_and]
  · rw [State.reg_setReg_same, BitVec.getLsbD_xor]

/-- Settles O19: the one write is of Vx, and a bit of it is set where the draw and kk have it. -/
theorem randomIsTheDrawMasked : Obligations.RandomIsTheDrawMasked := by
  refine ⟨fun _ hlead => decodeWord_rnd hlead, fun x kk s =>
    ⟨_, exec_rnd x kk s, onlyRegs_setReg s x _, fun k => ?_⟩⟩
  rw [State.reg_setReg_same, BitVec.getLsbD_and]

end Sys2Proof.Machine

/-! The shifts (43_arithmetic.md R115, R117, R118) under either order of the flag write. -/

namespace Sys2Proof.Machine

section
variable (s : State) (x : Reg) (shift : Byte → Byte) (bitOut : Byte → Bool)

/-- Off VF the flag, written first, does not reach the shift. -/
theorem State.shiftReg_flagFirst_of_ne_vf (hx : x ≠ vf) :
    s.shiftReg .flagFirst x shift bitOut = (s.setFlag (bitOut (s.reg x))).setReg x (shift (s.reg x)) := by
  simp only [State.shiftReg, State.reg_setFlag_other s _ hx]

/-- On VF the flag, written first, is what is shifted. -/
theorem State.reg_shiftReg_flagFirst_vf :
    (s.shiftReg .flagFirst vf shift bitOut).reg vf = shift (flagByte (bitOut (s.reg vf))) := by
  simp only [State.shiftReg, State.reg_setReg_same, State.reg_setFlag_vf]

theorem State.reg_shiftReg_flagLast (z : Reg) :
    (s.shiftReg .flagLast x shift bitOut).reg z =
      if z = vf then flagByte (bitOut (s.reg x)) else if z = x then shift (s.reg x) else s.reg z := by
  simp only [State.shiftReg, State.reg_setFlag, State.reg_setReg]

/-- Off VF the two writes are of different registers, so their order does not matter. -/
theorem State.reg_shiftReg_flagFirst (hx : x ≠ vf) (z : Reg) :
    (s.shiftReg .flagFirst x shift bitOut).reg z =
      if z = vf then flagByte (bitOut (s.reg x)) else if z = x then shift (s.reg x) else s.reg z := by
  rw [State.shiftReg_flagFirst_of_ne_vf s x shift bitOut hx, State.reg_setReg, State.reg_setFlag]
  by_cases hz : z = x
  · subst hz
    simp [hx]
  · simp [hz]

theorem State.reg_shiftReg_flagFirst_same (hx : x ≠ vf) :
    (s.shiftReg .flagFirst x shift bitOut).reg x = shift (s.reg x) := by
  rw [State.shiftReg_flagFirst_of_ne_vf s x shift bitOut hx, State.reg_setReg_same]

theorem State.reg_shiftReg_flagFirst_flag (hx : x ≠ vf) :
    (s.shiftReg .flagFirst x shift bitOut).reg vf = flagByte (bitOut (s.reg x)) := by
  rw [State.reg_shiftReg_flagFirst s x shift bitOut hx, if_pos rfl]

end

/-- Settles O18: off VF the registers of both orders are given by one rule, and under FLAG_LAST the flag is the last
write. -/
theorem shiftOrdersAgreeOffVF : Obligations.ShiftOrdersAgreeOffVF := by
  refine fun x shift bitOut s => ⟨fun hx z => ?_, ?_⟩
  · rw [State.reg_shiftReg_flagFirst s x shift bitOut hx, State.reg_shiftReg_flagLast]
  · exact (State.reg_shiftReg_flagLast s x shift bitOut vf).trans (if_pos rfl)

theorem exec_shr (x : Reg) (d : BitVec 4) (s : State) :
    exec (.shr x d) s = .next (s.shiftReg .flagFirst x (fun a => a >>> 1) lowBitOut) := rfl

theorem exec_shl (x : Reg) (d : BitVec 4) (s : State) :
    exec (.shl x d) s = .next (s.shiftReg .flagFirst x (fun a => a <<< 1) highBitOut) := rfl

theorem toNat_shiftRight_one (a : Byte) : (a >>> 1).toNat = a.toNat / 2 := by
  simp [Nat.shiftRight_eq_div_pow]

theorem toNat_shiftLeft_one (a : Byte) : (a <<< 1).toNat = 2 * a.toNat % 256 := by
  simp [Nat.shiftLeft_eq, Nat.mul_comm]

/-- Bit `k` of a byte as a flag. -/
theorem flagByte_getLsbD_toNat (a : Byte) (k : Nat) : (flagByte (a.getLsbD k)).toNat = a.toNat / 2 ^ k % 2 := by
  rw [BitVec.getLsbD, Nat.testBit_eq_decide_div_mod_eq, flagByte_decide]
  rcases Nat.mod_two_eq_zero_or_one (a.toNat / 2 ^ k) with hbit | hbit <;> simp [hbit]

theorem flagByte_lowBitOut_toNat (a : Byte) : (flagByte (lowBitOut a)).toNat = a.toNat % 2 := by
  rw [lowBitOut, flagByte_getLsbD_toNat, pow_zero, Nat.div_one]

theorem flagByte_highBitOut_toNat (a : Byte) : (flagByte (highBitOut a)).toNat = a.toNat / 128 := by
  have ha : a.toNat / 128 < 2 := by omega
  exact (flagByte_getLsbD_toNat a 7).trans (Nat.mod_eq_of_lt ha)

/-- Settles O16: off VF the shifted value is in Vx and the bit shifted out in VF; on VF a flag is halved. -/
theorem shiftRightMovesBitZeroToVF : Obligations.ShiftRightMovesBitZeroToVF := by
  refine ⟨fun _ hmask => decodeWord_shr hmask, fun x d s =>
    ⟨_, exec_shr x d s, fun hx => ⟨?_, ?_⟩, fun hx => ?_, onlyRegs_shiftReg s .flagFirst x _ _⟩⟩
  · rw [State.reg_shiftReg_flagFirst_same s x _ _ hx, toNat_shiftRight_one]
  · exact (congrArg BitVec.toNat (State.reg_shiftReg_flagFirst_flag s x _ _ hx)).trans
      (flagByte_lowBitOut_toNat (s.reg x))
  · subst hx
    refine (State.reg_shiftReg_flagFirst_vf s _ _).trans ?_
    cases lowBitOut (s.reg vf) <;> rfl

theorem toNat_flagByte_shiftLeft_one (c : Bool) : (flagByte c <<< 1).toNat = 2 * (flagByte c).toNat := by
  cases c <;> rfl

/-- Settles O17: off VF the shifted value is in Vx and the bit shifted out in VF; on VF a flag is doubled. -/
theorem shiftLeftMovesBitSevenToVF : Obligations.ShiftLeftMovesBitSevenToVF := by
  refine ⟨fun _ hmask => decodeWord_shl hmask, fun x d s =>
    ⟨_, exec_shl x d s, fun hx => ⟨?_, ?_⟩, fun hx => ?_, onlyRegs_shiftReg s .flagFirst x _ _⟩⟩
  · rw [State.reg_shiftReg_flagFirst_same s x _ _ hx, toNat_shiftLeft_one]
  · exact (congrArg BitVec.toNat (State.reg_shiftReg_flagFirst_flag s x _ _ hx)).trans
      (flagByte_highBitOut_toNat (s.reg x))
  · subst hx
    rw [← flagByte_highBitOut_toNat, ← toNat_flagByte_shiftLeft_one]
    exact congrArg BitVec.toNat (State.reg_shiftReg_flagFirst_vf s _ _)

end Sys2Proof.Machine

/-! `ADD I, Vx` and `LD F, Vx` (44_memory_index.md R122, R123), and `LD ST, Vx` (47_timers.md R140). -/

namespace Sys2Proof.Machine

theorem exec_addI_of_le {s : State} {x : Reg} (hfits : s.index.toNat + (s.reg x).toNat ≤ 0xFFFF) :
    exec (.addI x) s = .next (s.setIndex (BitVec.ofNat 16 (s.index.toNat + (s.reg x).toNat))) :=
  congrArg (checked (.addI x) s · _) (checkIndexSum_eq_none.mpr hfits)

/-- Settles O21: a sum that fits 16 bits is written exactly, a greater one is the fault. -/
theorem addIndexIsExactOrFaults : Obligations.AddIndexIsExactOrFaults := by
  refine ⟨fun _ hmask => decodeWord_addI hmask, fun x s =>
    ⟨fun hfits => ⟨_, exec_addI_of_le hfits, ?_, onlyIndex_setIndex s _⟩,
      fun hover => takesFault_of_checked (checkIndexSum_of_gt hover)⟩⟩
  rw [State.index_setIndex, BitVec.toNat_ofNat]
  exact Nat.mod_eq_of_lt (Nat.lt_succ_of_le hfits)

theorem exec_ldF (x : Reg) (s : State) : exec (.ldF x) s = .next (s.setIndex (glyphAddress (s.reg x))) := rfl

/-- Settles O22: I is the one write, and 0x050 + 5 * 255 fits it. -/
theorem glyphAddressUsesTheWholeRegister : Obligations.GlyphAddressUsesTheWholeRegister :=
  ⟨fun _ hmask => decodeWord_ldF hmask, fun x s =>
    ⟨_, exec_ldF x s, glyphAddress_toNat (s.reg x), onlyIndex_setIndex s _⟩⟩

theorem exec_ldSTVx (x : Reg) (s : State) : exec (.ldSTVx x) s = .next (s.setSt (s.reg x)) := rfl

/-- Settles O36: `LD ST, Vx` writes ST alone, and the tick that ends its step lowers what it wrote. -/
theorem setSoundTimer : Obligations.SetSoundTimer := by
  refine ⟨fun w hmask => decodeWord_ldSTVx hmask, fun x s => ⟨_, exec_ldSTVx x s, rfl, rfl, rfl, fun _ _ => rfl,
    rfl, fun _ => rfl, fun _ _ => rfl, ⟨rfl, fun _ => rfl⟩, rfl, rfl, rfl⟩,
    fun s x hrun hp hdec => ⟨_, step_of_exec_of_running hrun hp hdec (exec_ldSTVx x s.advance) hrun, ?_⟩⟩
  exact tickDown_toNat (s.reg x)

end Sys2Proof.Machine

/-! The instructions that reach memory through I (44_memory_index.md R124 to R126). Their one check finds nothing
exactly where the whole block lies below 0x1000, and else names its first address out of range. -/

namespace Sys2Proof.Machine

theorem checkSpan_of_firstOutOfRange {a k b : Nat} (h : FirstOutOfRange a k b) :
    checkSpan a k = some (.memBounds b) := by
  obtain ⟨hover, rfl⟩ := firstOutOfRange_iff.mp h
  exact checkSpan_of_oob hover

theorem exec_ldB_of_le {s : State} (x : Reg) (hfits : s.index.toNat + 2 ≤ 0xFFF) :
    exec (.ldB x) s = .next (s.setMem (s.mem.storeBytes s.index.toNat (decimalDigits (s.reg x)))) :=
  congrArg (checked (.ldB x) s · _) (checkSpan_eq_none.mpr hfits)

theorem exec_storeRegs_of_le {s : State} {x : Reg} (hfits : s.index.toNat + x.toNat ≤ 0xFFF) :
    exec (.storeRegs x) s = .next (s.setMem (s.mem.storeBytes s.index.toNat (s.regBlock x))) :=
  congrArg (checked (.storeRegs x) s · _) (checkSpan_eq_none.mpr hfits)

theorem exec_loadRegs_of_le {s : State} {x : Reg} (hfits : s.index.toNat + x.toNat ≤ 0xFFF) :
    exec (.loadRegs x) s = .next (s.setRegs (s.loadBlock x s.index.toNat)) :=
  congrArg (checked (.loadRegs x) s · _) (checkSpan_eq_none.mpr hfits)

/-- Byte `j` of a stored block reads back at its address. -/
theorem State.byteAt_setMem_storeBytes {s : State} (hm : s.MemOk) {a : Nat} {bytes : List Byte}
    (hfits : a + bytes.length ≤ Config.memSize) {j : Nat} (hj : j < bytes.length) :
    (s.setMem (s.mem.storeBytes a bytes)).byteAt (a + j) = bytes.getD j 0 := by
  have hin : a ≤ a + j ∧ a + j < a + bytes.length := ⟨Nat.le_add_right a j, Nat.add_lt_add_left hj a⟩
  rw [State.byteAt, State.mem_setMem, Memory.byteAt_storeBytes a bytes hm hfits, if_pos hin, Nat.add_sub_cancel_left]

section
variable {s : State} (x : Reg) (hfits : s.index.toNat + 2 ≤ 0xFFF)
include hfits

theorem decimalDigits_span : s.index.toNat + (decimalDigits (s.reg x)).length ≤ Config.memSize := by
  rw [decimalDigits_length]
  simp only [Config.memSize]
  omega

/-- After `LD B, Vx`, byte I + j is digit `j` of Vx. -/
theorem byteAt_ldB (hm : s.MemOk) {j : Nat} (hj : j < 3) :
    (s.setMem (s.mem.storeBytes s.index.toNat (decimalDigits (s.reg x)))).byteAt (s.index.toNat + j) =
      (decimalDigits (s.reg x)).getD j 0 :=
  State.byteAt_setMem_storeBytes hm (decimalDigits_span x hfits) hj

end

/-- Settles O23: the three digits are the block stored. -/
theorem decimalDigitsAreStoredAtIndex : Obligations.DecimalDigitsAreStoredAtIndex := by
  refine ⟨fun _ hmask => decodeWord_ldB hmask, fun x s hm => ⟨fun hfits => ?_,
    fun a hfirst => takesFault_of_checked (checkSpan_of_firstOutOfRange hfirst)⟩⟩
  refine ⟨_, exec_ldB_of_le x hfits, ?_, ?_, ?_, onlyBytes_storeBytes hm _ _ (decimalDigits_span x hfits)⟩
  · exact (congrArg BitVec.toNat (byteAt_ldB x hfits hm (j := 0) (by decide))).trans (by simp [decimalDigits])
  · exact (congrArg BitVec.toNat (byteAt_ldB x hfits hm (j := 1) (by decide))).trans (by simp [decimalDigits])
  · exact (congrArg BitVec.toNat (byteAt_ldB x hfits hm (j := 2) (by decide))).trans (by simp [decimalDigits])

section
variable {s : State} {x : Reg} (hfits : s.index.toNat + x.toNat ≤ 0xFFF)
include hfits

theorem regBlock_span : s.index.toNat + (s.regBlock x).length ≤ Config.memSize := by
  rw [State.regBlock_length]
  simp only [Config.memSize]
  omega

/-- After a block store, byte I + z is Vz. -/
theorem byteAt_storeRegs (hm : s.MemOk) {z : Reg} (hz : z.toNat ≤ x.toNat) :
    (s.setMem (s.mem.storeBytes s.index.toNat (s.regBlock x))).byteAt (s.index.toNat + z.toNat) = s.reg z := by
  have hlt : z.toNat < (s.regBlock x).length := by rw [State.regBlock_length]; omega
  rw [State.byteAt_setMem_storeBytes hm (regBlock_span hfits) hlt, State.regBlock_getD s hz]

end

/-- Settles O24: the register block is the block stored. -/
theorem registerBlockIsStoredAtIndex : Obligations.RegisterBlockIsStoredAtIndex := by
  refine ⟨fun _ hmask => decodeWord_storeRegs hmask, fun x s hm => ⟨fun hfits => ?_,
    fun a hfirst => takesFault_of_checked (checkSpan_of_firstOutOfRange hfirst)⟩⟩
  have hframe := onlyBytes_storeBytes hm _ _ (regBlock_span hfits)
  rw [State.regBlock_length] at hframe
  exact ⟨_, exec_storeRegs_of_le hfits, fun z hz => byteAt_storeRegs hfits hm hz, hframe⟩

/-- Settles O25: a block load writes V0 to Vx and no other register. -/
theorem registerBlockIsLoadedFromIndex : Obligations.RegisterBlockIsLoadedFromIndex := by
  refine ⟨fun _ hmask => decodeWord_loadRegs hmask, fun x s => ⟨fun hfits => ?_,
    fun a hfirst => takesFault_of_checked (checkSpan_of_firstOutOfRange hfirst)⟩⟩
  refine ⟨_, exec_loadRegs_of_le hfits, fun z hz => ?_, fun z hz => ?_, onlyRegs_setRegs s _ _ fun z hz => ?_⟩
  · rw [State.reg_loadBlock, if_pos hz]
  · rw [State.reg_loadBlock, if_neg (Nat.not_le.mpr hz)]
  · rw [State.reg_loadBlock, if_neg (mem_regsWritten_loadRegs.not.mp hz)]

/-- Settles O26: the load reads byte I + z, which the store has made Vz. -/
theorem storedBlockLoadsBack : Obligations.StoredBlockLoadsBack := by
  intro x s hm hfits
  refine ⟨_, exec_storeRegs_of_le hfits, fun u hmem hindex => ?_⟩
  have hi : u.index = s.index := hindex
  have hfits' : u.index.toNat + x.toNat ≤ 0xFFF := by rwa [hi]
  refine ⟨_, exec_loadRegs_of_le hfits', fun z hz => ?_⟩
  rw [State.reg_loadBlock, if_pos hz, hi, State.byteAt, hmem]
  exact byteAt_storeRegs hfits hm hz

end Sys2Proof.Machine

/-! `DRW Vx, Vy, n` (45_drawing.md R129 to R133). Where the sprite fits, it turns over exactly the pixels it covers;
where it does not, its first bad row decides the fault. -/

namespace Sys2Proof.Machine

/-- The state after a drawn sprite: the covered pixels turned over, the collision in VF. -/
def State.drawSprite (s : State) (x y : Reg) (n : BitVec 4) : State :=
  let drawn := drawPixels s.fb (s.spritePixels (spriteOrigin (s.reg x) (s.reg y)) n.toNat)
  (s.setFlag drawn.2).setFb drawn.1

section
variable {s : State} {x y : Reg} {n : BitVec 4} (hfits : SpriteFits s x y n)
include hfits

theorem exec_drw_of_fits : exec (.drw x y n) s = .next (s.drawSprite x y n) :=
  congrArg (checked (.drw x y n) s · _) ((spriteFits_iff s x y n).mp hfits)

theorem onScreen_of_fits : OnScreen (s.spritePixels (spriteOrigin (s.reg x) (s.reg y)) n.toNat) :=
  State.onScreen_of_checkSprite ((spriteFits_iff s x y n).mp hfits)

theorem pixel_drawSprite_of_covers {c r : Nat} (hcov : SpriteCovers s x y n c r) :
    (s.drawSprite x y n).pixel c r = !s.pixel c r :=
  (pixel_drawPixels s.fb (s.nodup_spritePixels _ _) (onScreen_of_fits hfits) c r).trans
    (if_pos ((spriteCovers_iff s x y n c r).mp hcov))

theorem pixel_drawSprite_of_not_covers {c r : Nat} (hcov : ¬SpriteCovers s x y n c r) :
    (s.drawSprite x y n).pixel c r = s.pixel c r :=
  (pixel_drawPixels s.fb (s.nodup_spritePixels _ _) (onScreen_of_fits hfits) c r).trans
    (if_neg ((spriteCovers_iff s x y n c r).not.mp hcov))

/-- The collision: a set bit met a pixel that was on. -/
theorem drawPixels_hits_iff :
    (drawPixels s.fb (s.spritePixels (spriteOrigin (s.reg x) (s.reg y)) n.toNat)).2 = true ↔
      ∃ c r, SpriteCovers s x y n c r ∧ s.pixel c r = true := by
  rw [collision_drawPixels s.fb (s.nodup_spritePixels _ _) (onScreen_of_fits hfits), List.any_eq_true]
  simp only [spriteCovers_iff, Prod.exists]
  rfl

theorem reg_vf_drawSprite_of_hit (hhit : ∃ c r, SpriteCovers s x y n c r ∧ s.pixel c r = true) :
    (s.drawSprite x y n).reg vf = 1 :=
  (State.reg_setFlag_vf s _).trans (congrArg flagByte ((drawPixels_hits_iff hfits).mpr hhit))

theorem reg_vf_drawSprite_of_miss (hmiss : ¬∃ c r, SpriteCovers s x y n c r ∧ s.pixel c r = true) :
    (s.drawSprite x y n).reg vf = 0 :=
  (State.reg_setFlag_vf s _).trans
    (congrArg flagByte (Bool.eq_false_iff.mpr ((drawPixels_hits_iff hfits).not.mpr hmiss)))

end

/-- Settles O28: where the sprite fits the check passes, and what is drawn is `State.drawSprite`. -/
theorem drawXorsTheSprite : Obligations.DrawXorsTheSprite :=
  ⟨fun _ hlead => decodeWord_drw hlead, fun _ _ _ s hfits =>
    ⟨_, exec_drw_of_fits hfits, fun _ _ => pixel_drawSprite_of_covers hfits,
      fun _ _ => pixel_drawSprite_of_not_covers hfits, reg_vf_drawSprite_of_hit hfits,
      reg_vf_drawSprite_of_miss hfits, onlyRegsAndPixels_setFlag_setFb s _ _⟩⟩

/-! The second draw: a sprite is what memory, I and the origin's registers make it. -/

/-- The two states hold the same sprite at the same origin. -/
def SameSprite (s u : State) (x y : Reg) : Prop :=
  u.mem = s.mem ∧ u.index = s.index ∧ u.reg x = s.reg x ∧ u.reg y = s.reg y

theorem SameSprite.covers_iff {s u : State} {x y : Reg} (h : SameSprite s u x y) (n : BitVec 4) (c r : Nat) :
    SpriteCovers u x y n c r ↔ SpriteCovers s x y n c r := by
  obtain ⟨hmem, hindex, hx, hy⟩ := h
  simp only [SpriteCovers, SpriteSet, SpriteColumn, SpriteRow, State.byteAt, hmem, hindex, hx, hy]

theorem SameSprite.fits_iff {s u : State} {x y : Reg} (h : SameSprite s u x y) (n : BitVec 4) :
    SpriteFits u x y n ↔ SpriteFits s x y n := by
  obtain ⟨hmem, hindex, hx, hy⟩ := h
  simp only [SpriteFits, RowFits, SpriteSet, SpriteColumn, SpriteRow, State.byteAt, hmem, hindex, hx, hy]

/-- Settles O30: the second draw turns the same pixels over again, and meets one that is on where the first met one
that was off. -/
theorem drawingTwiceRestoresTheScreen : Obligations.DrawingTwiceRestoresTheScreen := by
  intro x y n s hfits
  refine ⟨_, exec_drw_of_fits hfits, fun u hfb hmem hindex hx hy => ?_⟩
  have hsame : SameSprite s u x y := ⟨hmem, hindex, hx, hy⟩
  have hfits' : SpriteFits u x y n := (hsame.fits_iff n).mpr hfits
  have hpixel : ∀ c r, u.pixel c r = (s.drawSprite x y n).pixel c r := fun c r => congrArg (Screen.pixel · c r) hfb
  have hhit : (∃ c r, SpriteCovers u x y n c r ∧ u.pixel c r = true) ↔
      ∃ c r, SpriteCovers s x y n c r ∧ s.pixel c r = false := by
    refine exists_congr fun c => exists_congr fun r => ?_
    rw [hsame.covers_iff n c r]
    refine and_congr_right fun hcov => ?_
    rw [hpixel, pixel_drawSprite_of_covers hfits hcov, Bool.not_eq_true']
  refine ⟨_, exec_drw_of_fits hfits', fun c r => ?_, fun hflag => ?_, fun hoff => ?_⟩
  · by_cases hcov : SpriteCovers s x y n c r
    · rw [pixel_drawSprite_of_covers hfits' ((hsame.covers_iff n c r).mpr hcov), hpixel,
        pixel_drawSprite_of_covers hfits hcov, Bool.not_not]
    · rw [pixel_drawSprite_of_not_covers hfits' ((hsame.covers_iff n c r).not.mpr hcov), hpixel,
        pixel_drawSprite_of_not_covers hfits hcov]
  · rw [← hhit]
    by_contra hmiss
    exact absurd ((reg_vf_drawSprite_of_miss hfits' hmiss).symm.trans hflag) (by decide)
  · exact reg_vf_drawSprite_of_hit hfits' (hhit.mpr hoff)

/-! The first bad row (60_exceptions.md R148). -/

/-- A search of 0, 1, 2, ... ends at the first number that answers. -/
theorem findSome?_range_eq_some {α : Type} {f : Nat → Option α} {n m : Nat} {b : α} (hm : m < n)
    (hbefore : ∀ j, j < m → f j = none) (hb : f m = some b) : (List.range n).findSome? f = some b := by
  obtain ⟨k, rfl⟩ : ∃ k, n = m + (k + 1) := Nat.exists_eq_add_of_lt hm
  rw [List.range_add, List.range_succ_eq_map, List.map_cons, List.findSome?_eq_some_iff]
  exact ⟨_, _, _, rfl, hb, fun j hj => hbefore j (List.mem_range.mp hj)⟩

/-- The check phase stops at the first row whose check finds a fault. -/
theorem State.checkSprite_eq_some {s : State} {o : Nat × Nat} {n row : Nat} {k : FaultKind} (hrow : row < n)
    (hbefore : ∀ r, r < row → s.checkRow o r = none) (hk : s.checkRow o row = some k) :
    s.checkSprite o n = some k :=
  findSome?_range_eq_some hrow hbefore hk

theorem State.checkRow_of_address {s : State} {o : Nat × Nat} {row : Nat} (h : 0xFFF < s.index.toNat + row) :
    s.checkRow o row = some (.memBounds (s.index.toNat + row)) :=
  if_pos h

/-- In a row whose address is good, the first set bit off the screen is the fault. -/
theorem State.checkRow_of_pixel {s : State} {o : Nat × Nat} {row col : Nat} (haddr : s.index.toNat + row ≤ 0xFFF)
    (hset : SpriteSet s row col) (hoff : offScreen (o.1 + col, o.2 + row) = true)
    (hfirst : ∀ c, c < col → SpriteSet s row c → offScreen (o.1 + c, o.2 + row) = false) :
    s.checkRow o row = some (.framebufferBounds (o.1 + col) (o.2 + row)) := by
  obtain ⟨hcol, hbit⟩ := hset
  have hfind : (s.rowPixels o row).find? offScreen = some (o.1 + col, o.2 + row) := by
    rw [State.rowPixels, List.find?_map, List.find?_filter, Option.map_eq_some_iff]
    refine ⟨col, List.find?_range_eq_some.mpr ?_, rfl⟩
    refine ⟨decide_eq_true ⟨hbit, hoff⟩, List.mem_range.mpr hcol, ?_⟩
    intro c hc
    rw [Bool.not_eq_true', decide_eq_false_iff_not]
    rintro ⟨hbitc, hoffc⟩
    rw [Function.comp_apply, hfirst c hc ⟨by omega, hbitc⟩] at hoffc
    exact Bool.false_ne_true hoffc
  rw [State.checkRow, if_neg (Nat.not_lt.mpr haddr), hfind]
  rfl

theorem offScreen_iff (p : Nat × Nat) : offScreen p = true ↔ 63 < p.1 ∨ 31 < p.2 := by
  simp [offScreen]

/-- Settles O29: the rows before the bad one pass their checks, so the check phase stops there, at the address or at
the first set bit off the screen. -/
theorem drawFaultsOnTheFirstBadRow : Obligations.DrawFaultsOnTheFirstBadRow := by
  intro x y n s row hrow hbefore
  have hbefore' : ∀ r, r < row → s.checkRow (spriteOrigin (s.reg x) (s.reg y)) r = none :=
    fun r hr => (rowFits_iff s x y r).mp (hbefore r hr)
  refine ⟨fun haddr => ?_, fun haddr col hset hoff hfirst => ?_⟩
  · exact takesFault_of_checked (State.checkSprite_eq_some hrow hbefore' (State.checkRow_of_address haddr))
  · have hk := State.checkRow_of_pixel (o := spriteOrigin (s.reg x) (s.reg y)) haddr hset
      ((offScreen_iff _).mpr hoff) (fun c hc hset' => ?_)
    · exact takesFault_of_checked (State.checkSprite_eq_some hrow hbefore' hk)
    · obtain ⟨hcolumn, hrow'⟩ := hfirst c hc hset'
      rw [Bool.eq_false_iff, ne_eq, offScreen_iff]
      exact not_or.mpr ⟨Nat.not_lt.mpr hcolumn, Nat.not_lt.mpr hrow'⟩

end Sys2Proof.Machine

/-! Reset and launch (10_state.md R29, R33; 70_reset_and_hazards.md R169, R170). -/

namespace Sys2Proof.Machine

theorem resetByte_of_lt {a : Nat} (h : a < 0x050) : resetByte a = 0 := if_neg (Nat.not_le.mpr h)

theorem length_font : font.length = 80 := by decide

theorem resetByte_of_ge {a : Nat} (h : 0x0A0 ≤ a) : resetByte a = 0 := by
  have hbase : Config.fontBase ≤ a := Nat.le_trans (by decide) h
  have hout : font.length ≤ a - Config.fontBase := by
    rw [length_font, Config.fontBase]
    omega
  rw [resetByte, if_pos hbase, List.getD_eq_default _ _ hout]

/-- Settles O51: memory lists nothing at reset, so a byte is its unlisted contents; the rest is a replicated zero. -/
theorem resetLeavesTheStatedValues : Obligations.ResetLeavesTheStatedValues := by
  refine ⟨fun x => ?_, rfl, rfl, rfl, by decide, rfl, rfl, Screen.pixel_clear, rfl, fun a ha => ?_, by decide⟩
  · exact Vector.getElem_replicate _
  · exact ha.elim resetByte_of_lt resetByte_of_ge

/-- Settles O52: a launch is one block store, which the loader's bound keeps inside memory. -/
theorem launchPlacesTheRom : Obligations.LaunchPlacesTheRom := by
  refine fun rom => ⟨fun hfits => ?_, fun hlong => if_neg (Nat.not_le.mpr hlong)⟩
  have hreset : State.reset.MemOk := rfl
  have hspan : Config.programStart + rom.length ≤ Config.memSize := by
    simp only [Config.programStart, Config.memSize]
    omega
  refine ⟨_, if_pos hfits, fun k hk => ?_, ?_, Memory.wf_storeBytes _ rom hreset hspan, rfl⟩
  · rw [State.byteAt_setMem_storeBytes hreset hspan hk, List.getD_eq_getElem rom 0 hk]
  · exact fun _ hout => Memory.byteAt_storeBytes_outside hreset hspan hout

end Sys2Proof.Machine
